-- ==== Sys2Proof/Word.lean ====
section
/-! DEFINITION. The word types of the SMPU (spec 10_state.md R20): 8-bit registers and cells, the 16-bit program
counter and addresses, the 1-bit carry. Every value is unsigned (00_scope.md R7). -/
namespace Sys2Proof

/-- The contents of `a b q h l s` and of a memory cell (R20, R31). -/
abbrev Byte := BitVec 8

/-- The contents of `p`, and every address the block issues (R20, R41). -/
abbrev Word := BitVec 16

/-- The contents of `c` (R20, R28). -/
abbrev Bit := BitVec 1

end Sys2Proof
end

