-- ==== Sys2Proof/Config.lean ====
section
/-! DEFINITION. The three parameters a model takes (spec 00_scope.md R5). Their values for this hardware stand in
Machine/Params.lean; there is no free value, since the spec leaves none (93_implementation_defined.md, section 1). -/
namespace Sys2Proof

/-- `SHRC_CARRY`: what `SHRC` writes to `c` (R5, 42_shifts.md R113). -/
inductive ShrcCarry
  | asShr      -- `c` gets bit 0 of the original `a`
  | unchanged  -- `c` keeps its value
deriving DecidableEq, Repr

/-- The implementation parameters of R5. They are fixed for a model and no instruction reads them as data or changes
them (10_state.md R29). -/
structure Params where
  /-- `ADDR_WIDTH`, N: the memory has 2^N cells. -/
  addrWidth  : Nat
  /-- `WRITE_WIDTH`, W: a memory write stores its value modulo 2^W. -/
  writeWidth : Nat
  /-- `SHRC_CARRY`. -/
  shrcCarry  : ShrcCarry
deriving DecidableEq, Repr

/-- The number of memory cells, 2^N (10_state.md R31). -/
abbrev Params.cells (P : Params) : Nat := 2 ^ P.addrWidth

/-- The legal values of R5: 1 ≤ N ≤ 16 and 1 ≤ W ≤ 8. -/
abbrev Params.Legal (P : Params) : Prop :=
  1 ≤ P.addrWidth ∧ P.addrWidth ≤ 16 ∧ 1 ≤ P.writeWidth ∧ P.writeWidth ≤ 8

end Sys2Proof
end

