-- ==== Sys2Proof/Machine/Params.lean ====
section
/-! DEFINITION. The parameter values of this hardware (spec 00_scope.md R5). They stand in a file of their own so that
one place holds them; no meaning and no operation names them, only the reset state does. -/
namespace Sys2Proof.Machine

/-- R5, "value for this hardware": W = 8 and `SHRC_CARRY = as_SHR` are the spec's own choice (92_eei_decisions.md D4,
D9). DESIGN CHOICE (log entry 2): the spec leaves N open; N = 16 is the setting of its test vectors
(95_test_vectors.md, conventions). -/
def hardwareParams : Params := { addrWidth := 16, writeWidth := 8, shrcCarry := .asShr }

end Sys2Proof.Machine
end

