-- ==== Sys2Proof/Machine/State.lean ====
section
/-! DEFINITION. The state of the SMPU as plain data (spec 10_state.md: eight physical registers, the running status
and the memory cells; nothing else exists, R29, R34), and the reasons an operation outside a step can fail. -/
namespace Sys2Proof.Machine

/-- The eight physical registers (R20). -/
inductive Reg
  | a | b | q | h | l | s | p | c
deriving DecidableEq, Repr

/-- A readable register: a physical one, or one of the two derived ones (R20, R23, R24). -/
inductive RegName
  | phys (n : Reg)
  | r
  | z
deriving DecidableEq, Repr

/-- The running status (R30). -/
inductive RunStatus
  | running
  | halted
deriving DecidableEq, Repr

/-- The memory cells (R31): pairs of cell index and byte, indices strictly rising, no byte equal to what an unlisted
cell holds. -/
abbrev Memory := List Host.Cell

/-- What an unlisted cell holds: "remaining cells retain default 0" (R32, 20_memory.md R55). -/
def Memory.unlisted : Byte := 0#8

/-- The canonical form for cells `lo` to `hi - 1`. -/
def Memory.wfFrom (hi : Nat) : Nat → Memory → Bool
  | _, [] => true
  | lo, (k, v) :: m => decide (lo ≤ k) && decide (k < hi) && decide (v ≠ Memory.unlisted) && Memory.wfFrom hi (k + 1) m

/-- The canonical form of a memory of `cells` cells: equal memories are equal lists. -/
def Memory.wf (cells : Nat) (m : Memory) : Bool := Memory.wfFrom cells 0 m

structure State where
  a : Byte
  b : Byte
  /-- The counter; `z` follows it (R24). -/
  q : Byte
  /-- The high byte of `r` (R23). -/
  h : Byte
  /-- The low byte of `r` (R23). -/
  l : Byte
  /-- The stack pointer (45_stack_and_subroutine.md R160). -/
  s : Byte
  /-- The program counter (R27). -/
  p : Word
  /-- The carry flag (R28). -/
  c : Bit
  /-- The running status (R30). -/
  status : RunStatus
  /-- The memory cells (R31). -/
  mem : Memory
  /-- The model's own field (log entry 1): the parameters of 00_scope.md R5, which no step changes. -/
  params : Params
deriving DecidableEq, Repr

/-- Faults. No step raises one (60_exceptions.md R180); both belong to the host's software outside a step. -/
inductive Fault
  /-- Raised by the name-indexed register API, `regGet` and `regSet`, on a name that is no register and on a set of
  `r` or `z` (R182). Safe: no instruction can cause it. -/
  | unknownRegister
  /-- Raised by `launch` when the image could not be loaded (R183): the block never starts. Safe. -/
  | loaderFailed
deriving DecidableEq, Repr

/-- Refusals. No step answers one. -/
inductive Refusal
  /-- An instruction with no meaning yet, by its mnemonic. No arm of `exec` answers it. Safe. -/
  | notModelled (mnemonic : String)
  /-- Raised by `launch`: the parameters are outside R5's legal values. Safe. -/
  | illegalParams
  /-- Raised by `launch`: an image entry above 255 is outside the model (R55, 93_implementation_defined.md I11). Safe. -/
  | imageValueTooLarge
deriving DecidableEq, Repr

/-- The state after reset over a memory that reset does not touch (R32, 70_reset_and_hazards.md R200, D19). -/
def State.resetOver (P : Params) (m : Memory) : State :=
  { a := 0#8, b := 0#8, q := 0#8, h := 0#8, l := 0#8, s := 255#8, p := 0#16, c := 0#1, status := .running, mem := m, params := P }

/-- The machine right after reset, nothing loaded: every cell holds its default 0 (R32, 20_memory.md R55, log entries
2 and 6). -/
def State.reset : State := State.resetOver hardwareParams []

end Sys2Proof.Machine
end

