-- ==== Sys2Proof/Machine/Operands.lean ====
section
/-! DEFINITION. The operands an instruction reads beside the physical registers and its immediates: the derived
registers, the stack address, and the two bytes of a word. -/
namespace Sys2Proof.Machine

/-- The derived register `r`: `{x[h], x[l]}` (10_state.md R23). -/
def State.r (s : State) : Word := s.h ++ s.l

/-- The derived register `z`: 1 exactly when `q` is 0 (10_state.md R24). -/
def State.z (s : State) : Bit := if s.q = 0#8 then 1#1 else 0#1

/-- The stack address of slot `x`: `0xFF00 + x` (45_stack_and_subroutine.md R160). -/
def stackSlot (x : Byte) : Word := 0xFF00#16 + x.setWidth 16

/-- The address of the next free slot, `0xFF00 + s` (R160). -/
def State.stackAddr (s : State) : Word := stackSlot s.s

/-- `v[15:8]` (00_scope.md R7). -/
def hiByte (v : Word) : Byte := v.extractLsb' 8 8

/-- `v[7:0]` (00_scope.md R7). -/
def loByte (v : Word) : Byte := v.extractLsb' 0 8

end Sys2Proof.Machine
end

