-- ==== Sys2Proof/Machine/Flags.lean ====
section
/-! DEFINITION. How results are narrowed and how `c` is computed. Results are exact natural numbers, reduced only where
they are written (00_scope.md R8, R10; 41_arithmetic.md R104). `c` is the only flag an instruction writes; `z` follows
`q` (10_state.md R28). -/
namespace Sys2Proof.Machine

/-- The reduction of a value written to an 8-bit register (00_scope.md R10). -/
def low8 (v : Nat) : Byte := BitVec.ofNat 8 v

/-- `NOT8(v) = v XOR 0xFF` (00_scope.md R8). -/
def not8 (v : Nat) : Nat := v ^^^ 0xFF

/-- `(v > 255)`: the carry of `ADD ADDC SHL SLHC` (R100, R101, R110, R111). -/
def carryOut (v : Nat) : Bit := if v > 255 then 1#1 else 0#1

/-- `if raw > 255 then 0 else 1`: the carry of `SUB SUBC` (R102, R103). -/
def borrowOut (raw : Nat) : Bit := if raw > 255 then 0#1 else 1#1

/-- `v[i]` (00_scope.md R7). -/
def bitOf (v : Byte) (i : Nat) : Bit := v.extractLsb' i 1

/-- `v[7] XOR v[6] XOR … XOR v[0]` (43_logic_and_parity.md R126). -/
def xorBits (v : Byte) : Bit :=
  bitOf v 7 ^^^ bitOf v 6 ^^^ bitOf v 5 ^^^ bitOf v 4 ^^^ bitOf v 3 ^^^ bitOf v 2 ^^^ bitOf v 1 ^^^ bitOf v 0

/-- The number of 1 bits (00_scope.md R8). -/
def popcount (v : Byte) : Nat :=
  (bitOf v 0).toNat + (bitOf v 1).toNat + (bitOf v 2).toNat + (bitOf v 3).toNat +
  (bitOf v 4).toNat + (bitOf v 5).toNat + (bitOf v 6).toNat + (bitOf v 7).toNat

end Sys2Proof.Machine
end

