-- ==== Sys2Proof/Machine/Ops.lean ====
section
/-! DEFINITION. The named operations over memory and registers, and the halt. -/
namespace Sys2Proof.Machine

/-! ### Cells -/

/-- The byte of cell `i`. -/
def Memory.read : Memory → Nat → Byte
  | [], _ => Memory.unlisted
  | (k, v) :: m, i => if i = k then v else Memory.read m i

/-- Cell `i` holds `v` afterwards; the canonical form is kept. -/
def Memory.write : Memory → Nat → Byte → Memory
  | [], i, v => if v = Memory.unlisted then [] else [(i, v)]
  | (k, w) :: m, i, v =>
    if i < k then (if v = Memory.unlisted then (k, w) :: m else (i, v) :: (k, w) :: m)
    else if i = k then (if v = Memory.unlisted then m else (i, v) :: m)
    else (k, w) :: Memory.write m i v

/-! ### The memory bus (00_scope.md R11, R15; 20_memory.md R41 to R43) -/

/-- The cell an address reaches, `addr mod 2^N` (R41). -/
def cellOf (P : Params) (addr : Word) : Nat := addr.toNat % P.cells

/-- What a write of `v` stores, `v mod 2^W` (R43). -/
def maskWrite (P : Params) (v : Byte) : Byte := BitVec.ofNat 8 (v.toNat % 2 ^ P.writeWidth)

/-- The cells after the bus has taken `write(addr, v)` (R15, R43). -/
def busStore (P : Params) (m : Memory) (addr : Word) (v : Byte) : Memory :=
  Memory.write m (cellOf P addr) (maskWrite P v)

/-! ### Register writes, one home per register -/

def State.setA (s : State) (v : Byte) : State := { s with a := v }
def State.setB (s : State) (v : Byte) : State := { s with b := v }
def State.setQ (s : State) (v : Byte) : State := { s with q := v }
def State.setH (s : State) (v : Byte) : State := { s with h := v }
def State.setL (s : State) (v : Byte) : State := { s with l := v }
def State.setS (s : State) (v : Byte) : State := { s with s := v }
def State.setP (s : State) (v : Word) : State := { s with p := v }
def State.setC (s : State) (v : Bit) : State := { s with c := v }
def State.setStatus (s : State) (v : RunStatus) : State := { s with status := v }
def State.setMem (s : State) (v : Memory) : State := { s with mem := v }

/-! ### Memory accesses of the engine -/

/-- `MemRead(addr, 1)` (R42). -/
def State.memRead (s : State) (addr : Word) : Byte := Memory.read s.mem (cellOf s.params addr)

/-- `MemWrite(addr, 1, v)` (R43). -/
def State.memWrite (s : State) (addr : Word) (v : Byte) : State := s.setMem (busStore s.params s.mem addr v)

/-- `Fetch8()`: the byte at `p`, and the state with `p` advanced modulo 65536 (00_scope.md R12). -/
def State.fetch8 (s : State) : Byte × State := (s.memRead s.p, s.setP (s.p + 1#16))

/-! ### The stack (45_stack_and_subroutine.md R160) -/

/-- A push writes the slot at `s`, then decrements `s` modulo 256. -/
def State.push (s : State) (v : Byte) : State := (s.memWrite s.stackAddr v).setS (s.s - 1#8)

/-- A pop increments `s` modulo 256, then reads the slot at the new `s`. -/
def State.pop (s : State) : Byte × State :=
  let s1 := s.setS (s.s + 1#8)
  (s1.memRead s1.stackAddr, s1)

/-! ### Stopping

The block has no exception, no trap entry and no trap return (60_exceptions.md R180, R186, R187). What stands in their
place is the halt, the only abnormal outcome of a step. -/

/-- `halt`: the running status becomes HALTED and nothing else changes (00_scope.md R13, 60_exceptions.md R181). -/
def State.halt (s : State) : State := s.setStatus .halted

/-- What the step port reports for a step that ends in `s`: `return (running == RUNNING)` (30_encoding.md R69,
00_scope.md R16). -/
def State.report (s : State) : Bool := s.status == .running

end Sys2Proof.Machine
end

