-- ==== Sys2Proof/Machine/Arithmetic.lean ====
section
/-! DEFINITION. Arithmetic (41_arithmetic.md, opcodes 20 to 23). Each result is exact on natural numbers and narrowed
when it is written (R104). -/
namespace Sys2Proof.Machine

/-- R100. -/
def execAdd (s : State) : Host.Outcome State Fault Refusal :=
  let sum := s.a.toNat + s.b.toNat
  .next ((s.setA (low8 sum)).setC (carryOut sum))

/-- R101. -/
def execAddc (s : State) : Host.Outcome State Fault Refusal :=
  let sum := s.a.toNat + s.b.toNat + s.c.toNat
  .next ((s.setA (low8 sum)).setC (carryOut sum))

/-- R102: `c` is the complement of the adder's carry out (90_conflicts.md C2, 92_eei_decisions.md D22). -/
def execSub (s : State) : Host.Outcome State Fault Refusal :=
  let raw := s.a.toNat + not8 s.b.toNat + 1
  .next ((s.setA (low8 raw)).setC (borrowOut raw))

/-- R103: the carry is added (92_eei_decisions.md D7). -/
def execSubc (s : State) : Host.Outcome State Fault Refusal :=
  let raw := s.a.toNat + not8 s.b.toNat + 1 + s.c.toNat
  .next ((s.setA (low8 raw)).setC (borrowOut raw))

end Sys2Proof.Machine
end

