-- ==== Sys2Proof/Machine/Branches.lean ====
section
/-! DEFINITION. Counter and branches (44_counter_and_branches.md, opcodes 36 to 41). -/
namespace Sys2Proof.Machine

/-- R140: modulo 256; `c` is not written. -/
def execIncr (s : State) : Host.Outcome State Fault Refusal := .next (s.setQ (s.q + 1#8))

/-- R141: modulo 256; `c` is not written. -/
def execDecr (s : State) : Host.Outcome State Fault Refusal := .next (s.setQ (s.q - 1#8))

/-- R142: `x[p] <- x[r]`. -/
def execJmp (s : State) : Host.Outcome State Fault Refusal := .next (s.setP s.r)

/-- R143: `if x[c] == 1 then x[p] <- x[r]`. -/
def execJmpc (s : State) : Host.Outcome State Fault Refusal := .next (if s.c = 1#1 then s.setP s.r else s)

/-- R144: `if x[z] == 1 then x[p] <- x[r]`. -/
def execJmpz (s : State) : Host.Outcome State Fault Refusal := .next (if s.z = 1#1 then s.setP s.r else s)

/-- R145: `if x[z] == 0 then x[p] <- x[r]`. -/
def execJmpq (s : State) : Host.Outcome State Fault Refusal := .next (if s.z = 0#1 then s.setP s.r else s)

end Sys2Proof.Machine
end

