-- ==== Sys2Proof/Machine/Logic.lean ====
section
/-! DEFINITION. Logic and parity (43_logic_and_parity.md, opcodes 28 to 35). The six logic instructions write `a`
only, the two parity instructions `c` only. -/
namespace Sys2Proof.Machine

/-- R120. -/
def execAnd (s : State) : Host.Outcome State Fault Refusal := .next (s.setA (s.a &&& s.b))

/-- R121. -/
def execOr (s : State) : Host.Outcome State Fault Refusal := .next (s.setA (s.a ||| s.b))

/-- R122. -/
def execXor (s : State) : Host.Outcome State Fault Refusal := .next (s.setA (s.a ^^^ s.b))

/-- R123. -/
def execNand (s : State) : Host.Outcome State Fault Refusal := .next (s.setA ((s.a &&& s.b) ^^^ 0xFF#8))

/-- R124. -/
def execNor (s : State) : Host.Outcome State Fault Refusal := .next (s.setA ((s.a ||| s.b) ^^^ 0xFF#8))

/-- R125. -/
def execXnor (s : State) : Host.Outcome State Fault Refusal := .next (s.setA ((s.a ^^^ s.b) ^^^ 0xFF#8))

/-- R126: the exclusive or of the bits of `a`. -/
def execCksm (s : State) : Host.Outcome State Fault Refusal := .next (s.setC (xorBits s.a))

/-- R127: `(popcount(x[a]) mod 2) XOR x[c]`. -/
def execCksmc (s : State) : Host.Outcome State Fault Refusal :=
  .next (s.setC (BitVec.ofNat 1 (popcount s.a % 2) ^^^ s.c))

end Sys2Proof.Machine
end

