-- ==== Sys2Proof/Machine/Moves.lean ====
section
/-! DEFINITION. Halt, no-op, address set-up and register moves (40_control_and_moves.md, opcodes 0 to 15). -/
namespace Sys2Proof.Machine

/-- R80. -/
def execHlt (s : State) : Host.Outcome State Fault Refusal := .next s.halt

/-- R81: nothing beyond the opcode fetch. -/
def execNop (s : State) : Host.Outcome State Fault Refusal := .next s

/-- R82: the first immediate to `h`, the second to `l`. -/
def execAdr (hi8 lo8 : Byte) (s : State) : Host.Outcome State Fault Refusal := .next ((s.setH hi8).setL lo8)

/-- R83: `x[a] <- MemRead(x[r], 1)`. -/
def execLda (s : State) : Host.Outcome State Fault Refusal := .next (s.setA (s.memRead s.r))

/-- R84: `MemWrite(x[r], 1, x[a])`. -/
def execSta (s : State) : Host.Outcome State Fault Refusal := .next (s.memWrite s.r s.a)

/-- R85: `x[b] <- x[a]`. -/
def execLdb (s : State) : Host.Outcome State Fault Refusal := .next (s.setB s.a)

/-- R86: `let t = x[a]; x[a] <- x[b]; x[b] <- t`. -/
def execSwp (s : State) : Host.Outcome State Fault Refusal :=
  let t := s.a
  .next ((s.setA s.b).setB t)

/-- R87: `x[h] <- x[a]`. -/
def execLdh (s : State) : Host.Outcome State Fault Refusal := .next (s.setH s.a)

/-- R88: `x[l] <- x[a]`. -/
def execLdl (s : State) : Host.Outcome State Fault Refusal := .next (s.setL s.a)

/-- R89: `x[a] <- x[h]`. -/
def execSth (s : State) : Host.Outcome State Fault Refusal := .next (s.setA s.h)

/-- R90: `x[a] <- x[l]`. -/
def execStl (s : State) : Host.Outcome State Fault Refusal := .next (s.setA s.l)

/-- R91: `x[q] <- x[a]`. -/
def execLdq (s : State) : Host.Outcome State Fault Refusal := .next (s.setQ s.a)

/-- R92: `x[a] <- x[q]`. -/
def execStq (s : State) : Host.Outcome State Fault Refusal := .next (s.setA s.q)

/-- R93: `x[a] <- Fetch8()`. -/
def execCla (imm8 : Byte) (s : State) : Host.Outcome State Fault Refusal := .next (s.setA imm8)

/-- R94: `x[b] <- Fetch8()`. -/
def execClb (imm8 : Byte) (s : State) : Host.Outcome State Fault Refusal := .next (s.setB imm8)

/-- R95: `x[q] <- Fetch8()`. -/
def execClq (imm8 : Byte) (s : State) : Host.Outcome State Fault Refusal := .next (s.setQ imm8)

end Sys2Proof.Machine
end

