-- ==== Sys2Proof/Machine/Shifts.lean ====
section
/-! DEFINITION. Shifts (42_shifts.md, opcodes 24 to 27), with `SLHC` and `SHRC` read literally (92_eei_decisions.md
D10). -/
namespace Sys2Proof.Machine

/-- R110. -/
def execShl (s : State) : Host.Outcome State Fault Refusal :=
  let v := s.a.toNat <<< 1
  .next ((s.setA (low8 v)).setC (carryOut v))

/-- R111: the count is `1 + c` (90_conflicts.md C3). -/
def execSlhc (s : State) : Host.Outcome State Fault Refusal :=
  let v := s.a.toNat <<< (1 + s.c.toNat)
  .next ((s.setA (low8 v)).setC (carryOut v))

/-- R112. -/
def execShr (s : State) : Host.Outcome State Fault Refusal :=
  let old := s.a
  .next ((s.setA (low8 (old.toNat >>> 1))).setC (bitOf old 0))

/-- R113: the count is `1 + c * 128`; what `c` becomes is the parameter `SHRC_CARRY`. -/
def execShrc (s : State) : Host.Outcome State Fault Refusal :=
  let old := s.a
  let s1 := s.setA (low8 (old.toNat >>> (1 + s.c.toNat * 128)))
  .next (match s.params.shrcCarry with
    | .asShr => s1.setC (bitOf old 0)
    | .unchanged => s1)

end Sys2Proof.Machine
end

