-- ==== Sys2Proof/Machine/Stack.lean ====
section
/-! DEFINITION. Stack and subroutine (45_stack_and_subroutine.md, opcodes 42 to 45). -/
namespace Sys2Proof.Machine

/-- R161. -/
def execPsh (s : State) : Host.Outcome State Fault Refusal := .next (s.push s.a)

/-- R162. -/
def execPop (s : State) : Host.Outcome State Fault Refusal :=
  let top := s.pop
  .next (top.2.setA top.1)

/-- R163: the high byte of `p` is pushed first (20_memory.md R46), `p` being the address after the `SUBR` opcode
(92_eei_decisions.md D12). -/
def execSubr (s : State) : Host.Outcome State Fault Refusal :=
  let ret := s.p
  let s1 := s.push (hiByte ret)
  let s2 := s1.push (loByte ret)
  .next (s2.setP s2.r)

/-- R164: the low byte to `l`, then the high byte to `h`; `p` is not written (92_eei_decisions.md D11). -/
def execRet (s : State) : Host.Outcome State Fault Refusal :=
  let lo := s.pop
  let s1 := lo.2.setL lo.1
  let hi := s1.pop
  .next (hi.2.setH hi.1)

end Sys2Proof.Machine
end

