-- ==== Sys2Proof/Machine/Unimplemented.lean ====
section
/-! DEFINITION. The opcodes that select no instruction (30_encoding.md R64): after the opcode fetch the step halts,
exactly as `HLT`. One definition per row of spec/opcode_table.json. -/
namespace Sys2Proof.Machine

/-- R64, opcodes 16 to 19. -/
def execUnimpl16to19 (s : State) : Host.Outcome State Fault Refusal := .next s.halt

/-- R64, opcodes 46 and 47. -/
def execUnimpl46to47 (s : State) : Host.Outcome State Fault Refusal := .next s.halt

/-- R64, opcodes 48 to 63. -/
def execUnimpl48to63 (s : State) : Host.Outcome State Fault Refusal := .next s.halt

/-- R64, opcodes 64 to 127. -/
def execUnimpl64to127 (s : State) : Host.Outcome State Fault Refusal := .next s.halt

/-- R64, opcodes 128 to 255. -/
def execUnimpl128to255 (s : State) : Host.Outcome State Fault Refusal := .next s.halt

end Sys2Proof.Machine
end

