-- ==== Sys2Proof/Syntax.lean ====
section
/-! DEFINITION. The instructions: one constructor per row of spec/opcode_table.json, in the table's order
(30_encoding.md R63), with the immediates as operands (R62). The last five are the table's rows for opcodes that
select no instruction (R64); each keeps the opcode byte it was decoded from. -/
namespace Sys2Proof

inductive Instr
  /-- R80, opcode 0: halt. -/
  | hlt
  /-- R81, opcode 1: no operation. -/
  | nop
  /-- R82, opcode 2: set the address pair. -/
  | adr (hi8 lo8 : Byte)
  /-- R83, opcode 3: load `a` from memory at `r`. -/
  | lda
  /-- R84, opcode 4: store `a` to memory at `r`. -/
  | sta
  /-- R85, opcode 5: copy `a` into `b`. -/
  | ldb
  /-- R86, opcode 6: exchange `a` and `b`. -/
  | swp
  /-- R87, opcode 7: copy `a` into `h`. -/
  | ldh
  /-- R88, opcode 8: copy `a` into `l`. -/
  | ldl
  /-- R89, opcode 9: copy `h` into `a`. -/
  | sth
  /-- R90, opcode 10: copy `l` into `a`. -/
  | stl
  /-- R91, opcode 11: copy `a` into `q`. -/
  | ldq
  /-- R92, opcode 12: copy `q` into `a`. -/
  | stq
  /-- R93, opcode 13: load `a` with an immediate. -/
  | cla (imm8 : Byte)
  /-- R94, opcode 14: load `b` with an immediate. -/
  | clb (imm8 : Byte)
  /-- R95, opcode 15: load `q` with an immediate. -/
  | clq (imm8 : Byte)
  /-- R100, opcode 20: add `b` to `a`. -/
  | add
  /-- R101, opcode 21: add `b` and the carry to `a`. -/
  | addc
  /-- R102, opcode 22: subtract `b` from `a`. -/
  | sub
  /-- R103, opcode 23: subtract `b` from `a` with the carry added in. -/
  | subc
  /-- R110, opcode 24: shift `a` left by one. -/
  | shl
  /-- R111, opcode 25: shift `a` left by one plus the carry. -/
  | slhc
  /-- R112, opcode 26: shift `a` right by one. -/
  | shr
  /-- R113, opcode 27: shift `a` right by one plus 128 times the carry. -/
  | shrc
  /-- R120, opcode 28: bitwise and. -/
  | and
  /-- R121, opcode 29: bitwise or. -/
  | or
  /-- R122, opcode 30: bitwise exclusive or. -/
  | xor
  /-- R123, opcode 31: complement of and. -/
  | nand
  /-- R124, opcode 32: complement of or. -/
  | nor
  /-- R125, opcode 33: complement of exclusive or. -/
  | xnor
  /-- R126, opcode 34: parity of `a` into `c`. -/
  | cksm
  /-- R127, opcode 35: running parity. -/
  | cksmc
  /-- R140, opcode 36: increment `q`. -/
  | incr
  /-- R141, opcode 37: decrement `q`. -/
  | decr
  /-- R142, opcode 38: jump to `r`. -/
  | jmp
  /-- R143, opcode 39: jump to `r` if the carry is set. -/
  | jmpc
  /-- R144, opcode 40: jump to `r` if `q` is zero. -/
  | jmpz
  /-- R145, opcode 41: jump to `r` if `q` is not zero. -/
  | jmpq
  /-- R161, opcode 42: push `a`. -/
  | psh
  /-- R162, opcode 43: pop into `a`. -/
  | pop
  /-- R163, opcode 44: call the subroutine at `r`. -/
  | subr
  /-- R164, opcode 45: pop the return address into `h:l`. -/
  | ret
  /-- R64, opcodes 16 to 19: halt after the opcode fetch. -/
  | unimpl16to19 (op : Byte)
  /-- R64, opcodes 46 to 47: halt after the opcode fetch. -/
  | unimpl46to47 (op : Byte)
  /-- R64, opcodes 48 to 63: halt after the opcode fetch. -/
  | unimpl48to63 (op : Byte)
  /-- R64, opcodes 64 to 127: halt after the opcode fetch. -/
  | unimpl64to127 (op : Byte)
  /-- R64, opcodes 128 to 255: halt after the opcode fetch. -/
  | unimpl128to255 (op : Byte)
deriving DecidableEq, Repr

end Sys2Proof
end

