-- ==== Sys2Proof/Machine/Dispatch.lean ====
section
/-! DEFINITION. The dispatch of 30_encoding.md R69: one arm per instruction. The state `s` is the one after the
instruction's fetches, so `s.p` is the address after its last byte (R71). -/
namespace Sys2Proof.Machine

def exec (i : Instr) (s : State) : Host.Outcome State Fault Refusal :=
  match i with
  | .hlt => Sys2Proof.Machine.execHlt s
  | .nop => Sys2Proof.Machine.execNop s
  | .adr hi8 lo8 => Sys2Proof.Machine.execAdr hi8 lo8 s
  | .lda => Sys2Proof.Machine.execLda s
  | .sta => Sys2Proof.Machine.execSta s
  | .ldb => Sys2Proof.Machine.execLdb s
  | .swp => Sys2Proof.Machine.execSwp s
  | .ldh => Sys2Proof.Machine.execLdh s
  | .ldl => Sys2Proof.Machine.execLdl s
  | .sth => Sys2Proof.Machine.execSth s
  | .stl => Sys2Proof.Machine.execStl s
  | .ldq => Sys2Proof.Machine.execLdq s
  | .stq => Sys2Proof.Machine.execStq s
  | .cla imm8 => Sys2Proof.Machine.execCla imm8 s
  | .clb imm8 => Sys2Proof.Machine.execClb imm8 s
  | .clq imm8 => Sys2Proof.Machine.execClq imm8 s
  | .add => Sys2Proof.Machine.execAdd s
  | .addc => Sys2Proof.Machine.execAddc s
  | .sub => Sys2Proof.Machine.execSub s
  | .subc => Sys2Proof.Machine.execSubc s
  | .shl => Sys2Proof.Machine.execShl s
  | .slhc => Sys2Proof.Machine.execSlhc s
  | .shr => Sys2Proof.Machine.execShr s
  | .shrc => Sys2Proof.Machine.execShrc s
  | .and => Sys2Proof.Machine.execAnd s
  | .or => Sys2Proof.Machine.execOr s
  | .xor => Sys2Proof.Machine.execXor s
  | .nand => Sys2Proof.Machine.execNand s
  | .nor => Sys2Proof.Machine.execNor s
  | .xnor => Sys2Proof.Machine.execXnor s
  | .cksm => Sys2Proof.Machine.execCksm s
  | .cksmc => Sys2Proof.Machine.execCksmc s
  | .incr => Sys2Proof.Machine.execIncr s
  | .decr => Sys2Proof.Machine.execDecr s
  | .jmp => Sys2Proof.Machine.execJmp s
  | .jmpc => Sys2Proof.Machine.execJmpc s
  | .jmpz => Sys2Proof.Machine.execJmpz s
  | .jmpq => Sys2Proof.Machine.execJmpq s
  | .psh => Sys2Proof.Machine.execPsh s
  | .pop => Sys2Proof.Machine.execPop s
  | .subr => Sys2Proof.Machine.execSubr s
  | .ret => Sys2Proof.Machine.execRet s
  | .unimpl16to19 _ => Sys2Proof.Machine.execUnimpl16to19 s
  | .unimpl46to47 _ => Sys2Proof.Machine.execUnimpl46to47 s
  | .unimpl48to63 _ => Sys2Proof.Machine.execUnimpl48to63 s
  | .unimpl64to127 _ => Sys2Proof.Machine.execUnimpl64to127 s
  | .unimpl128to255 _ => Sys2Proof.Machine.execUnimpl128to255 s

end Sys2Proof.Machine
end

