-- ==== Sys2Proof/WellFormed.lean ====
section
/-! DEFINITION. Well-formed instructions. Immediates are 8 bits by their type (30_encoding.md R62), so the only check
is that the opcode byte of an unimplemented row lies in that row's range (R64, spec/opcode_table.json). -/
namespace Sys2Proof

/-- The opcode byte lies from `lo` to `hi`. -/
def opcodeIn (lo hi : Nat) (op : Byte) : Bool := lo ≤ op.toNat && op.toNat ≤ hi

/-- The check, constructor by constructor. -/
def Instr.wf : Instr → Bool
  | .hlt => true
  | .nop => true
  | .adr _ _ => true
  | .lda => true
  | .sta => true
  | .ldb => true
  | .swp => true
  | .ldh => true
  | .ldl => true
  | .sth => true
  | .stl => true
  | .ldq => true
  | .stq => true
  | .cla _ => true
  | .clb _ => true
  | .clq _ => true
  | .add => true
  | .addc => true
  | .sub => true
  | .subc => true
  | .shl => true
  | .slhc => true
  | .shr => true
  | .shrc => true
  | .and => true
  | .or => true
  | .xor => true
  | .nand => true
  | .nor => true
  | .xnor => true
  | .cksm => true
  | .cksmc => true
  | .incr => true
  | .decr => true
  | .jmp => true
  | .jmpc => true
  | .jmpz => true
  | .jmpq => true
  | .psh => true
  | .pop => true
  | .subr => true
  | .ret => true
  | .unimpl16to19 op => opcodeIn 16 19 op
  | .unimpl46to47 op => opcodeIn 46 47 op
  | .unimpl48to63 op => opcodeIn 48 63 op
  | .unimpl64to127 op => opcodeIn 64 127 op
  | .unimpl128to255 op => opcodeIn 128 255 op

/-- `i` is an instruction the encoding can express. -/
abbrev WellFormed (i : Instr) : Prop := i.wf = true

end Sys2Proof
end

