-- ==== Sys2Proof/Decode.lean ====
section
/-! DEFINITION. The decoder, total on any bytes (spec 30_encoding.md R60 to R66), and after it the encoder, written
from the same table (R61, R63). -/
namespace Sys2Proof

/-- The three formats of R61. -/
inductive Format
  | f1  -- opcode
  | f2  -- opcode, imm8
  | f3  -- opcode, hi8, lo8
deriving DecidableEq, Repr

/-- R60: the opcode alone fixes the length. -/
def formatOf (op : Byte) : Format :=
  if op = 0x02#8 then .f3
  else if op = 0x0D#8 ∨ op = 0x0E#8 ∨ op = 0x0F#8 then .f2
  else .f1

/-- The opcode map of R63, with every unassigned opcode mapped to its unimplemented row (R64, R65). `i1` and `i2` are
the bytes after the opcode; a format that has no such byte does not look at it. -/
def assemble (op i1 i2 : Byte) : Instr :=
  match op with
  | 0x00#8 => .hlt
  | 0x01#8 => .nop
  | 0x02#8 => .adr i1 i2
  | 0x03#8 => .lda
  | 0x04#8 => .sta
  | 0x05#8 => .ldb
  | 0x06#8 => .swp
  | 0x07#8 => .ldh
  | 0x08#8 => .ldl
  | 0x09#8 => .sth
  | 0x0A#8 => .stl
  | 0x0B#8 => .ldq
  | 0x0C#8 => .stq
  | 0x0D#8 => .cla i1
  | 0x0E#8 => .clb i1
  | 0x0F#8 => .clq i1
  | 0x14#8 => .add
  | 0x15#8 => .addc
  | 0x16#8 => .sub
  | 0x17#8 => .subc
  | 0x18#8 => .shl
  | 0x19#8 => .slhc
  | 0x1A#8 => .shr
  | 0x1B#8 => .shrc
  | 0x1C#8 => .and
  | 0x1D#8 => .or
  | 0x1E#8 => .xor
  | 0x1F#8 => .nand
  | 0x20#8 => .nor
  | 0x21#8 => .xnor
  | 0x22#8 => .cksm
  | 0x23#8 => .cksmc
  | 0x24#8 => .incr
  | 0x25#8 => .decr
  | 0x26#8 => .jmp
  | 0x27#8 => .jmpc
  | 0x28#8 => .jmpz
  | 0x29#8 => .jmpq
  | 0x2A#8 => .psh
  | 0x2B#8 => .pop
  | 0x2C#8 => .subr
  | 0x2D#8 => .ret
  | op =>
    if op.toNat < 20 then .unimpl16to19 op
    else if op.toNat < 48 then .unimpl46to47 op
    else if op.toNat < 64 then .unimpl48to63 op
    else if op.toNat < 128 then .unimpl64to127 op
    else .unimpl128to255 op

/-- Why a list of bytes is no instruction: it ends before the instruction does. No opcode is rejected (R65). -/
inductive DecodeError
  | noBytes               -- there is no opcode byte
  | truncated (op : Byte) -- the opcode `op` needs more immediate bytes than there are
deriving DecidableEq, Repr

/-- The instruction at the front of a list of bytes, and the bytes after it (R60, R61). -/
def decode : List Byte → Except DecodeError (Instr × List Byte)
  | [] => .error .noBytes
  | op :: rest =>
    match formatOf op, rest with
    | .f1, rest => .ok (assemble op 0#8 0#8, rest)
    | .f2, i1 :: rest => .ok (assemble op i1 0#8, rest)
    | .f2, [] => .error (.truncated op)
    | .f3, i1 :: i2 :: rest => .ok (assemble op i1 i2, rest)
    | .f3, [_] => .error (.truncated op)
    | .f3, [] => .error (.truncated op)

/-- The bytes of an instruction, in address order (R61, R63). -/
def encode : Instr → List Byte
  | .hlt => [0x00#8]
  | .nop => [0x01#8]
  | .adr hi8 lo8 => [0x02#8, hi8, lo8]
  | .lda => [0x03#8]
  | .sta => [0x04#8]
  | .ldb => [0x05#8]
  | .swp => [0x06#8]
  | .ldh => [0x07#8]
  | .ldl => [0x08#8]
  | .sth => [0x09#8]
  | .stl => [0x0A#8]
  | .ldq => [0x0B#8]
  | .stq => [0x0C#8]
  | .cla imm8 => [0x0D#8, imm8]
  | .clb imm8 => [0x0E#8, imm8]
  | .clq imm8 => [0x0F#8, imm8]
  | .add => [0x14#8]
  | .addc => [0x15#8]
  | .sub => [0x16#8]
  | .subc => [0x17#8]
  | .shl => [0x18#8]
  | .slhc => [0x19#8]
  | .shr => [0x1A#8]
  | .shrc => [0x1B#8]
  | .and => [0x1C#8]
  | .or => [0x1D#8]
  | .xor => [0x1E#8]
  | .nand => [0x1F#8]
  | .nor => [0x20#8]
  | .xnor => [0x21#8]
  | .cksm => [0x22#8]
  | .cksmc => [0x23#8]
  | .incr => [0x24#8]
  | .decr => [0x25#8]
  | .jmp => [0x26#8]
  | .jmpc => [0x27#8]
  | .jmpz => [0x28#8]
  | .jmpq => [0x29#8]
  | .psh => [0x2A#8]
  | .pop => [0x2B#8]
  | .subr => [0x2C#8]
  | .ret => [0x2D#8]
  | .unimpl16to19 op => [op]
  | .unimpl46to47 op => [op]
  | .unimpl48to63 op => [op]
  | .unimpl64to127 op => [op]
  | .unimpl128to255 op => [op]

/-- The length of an instruction in bytes (R60). -/
def Instr.size (i : Instr) : Nat := (encode i).length

/-- The bytes of a sequence of instructions laid out one after another. -/
def encodeSeq (is : List Instr) : List Byte := is.flatMap encode

/-- The three bytes (the longest instruction) of a table word of `nbits` bits, the first byte its least significant;
the bits from `nbits` on are 0. -/
def tableBytes (nbits w : Nat) : List Byte :=
  let v := w % 2 ^ nbits
  [BitVec.ofNat 8 v, BitVec.ofNat 8 (v / 256), BitVec.ofNat 8 (v / 65536)]

/-- The instruction the decoder reads from a word of spec/opcode_table.json. -/
def decodeTableWord (nbits w : Nat) : Option Instr :=
  match decode (tableBytes nbits w) with
  | .ok (i, _) => some i
  | .error _ => none

end Sys2Proof
end

