-- ==== Sys2Proof/Machine/Fetch.lean ====
section
/-! DEFINITION. Fetching the next instruction: the opcode, then its immediates, each by `Fetch8()` (30_encoding.md R69,
20_memory.md R51); and placing an instruction where it is fetched. -/
namespace Sys2Proof.Machine

/-- The instruction at `p`, and the state after all of its fetches. -/
def fetchInstr (s : State) : Instr × State :=
  let op := s.fetch8
  match formatOf op.1 with
  | .f1 => (assemble op.1 0#8 0#8, op.2)
  | .f2 =>
    let i1 := op.2.fetch8
    (assemble op.1 i1.1 0#8, i1.2)
  | .f3 =>
    let i1 := op.2.fetch8
    let i2 := i1.2.fetch8
    (assemble op.1 i1.1 i2.1, i2.2)

/-- `bytes` put into the cells from `addr` on, as the loader puts them, without the write mask (20_memory.md R55). The
last byte goes first, so that where cells alias the earlier byte stands. -/
def State.loadBytes (s : State) (addr : Word) : List Byte → State
  | [] => s
  | v :: vs =>
    let s1 := s.loadBytes (addr + 1#16) vs
    s1.setMem (Memory.write s1.mem (cellOf s.params addr) v)

end Sys2Proof.Machine
end

