-- ==== Sys2Proof/Machine/Step.lean ====
section
/-! DEFINITION. One step of the block (30_encoding.md R69), and the placing of a next instruction for it. -/
namespace Sys2Proof.Machine

/-- R69: a HALTED block does nothing (60_exceptions.md R193); a RUNNING one fetches an instruction and executes it.
What the step reports is `State.report` of the state it ends in. -/
def step (s : State) : Host.Outcome State Fault Refusal :=
  match s.status with
  | .halted => .next s
  | .running => exec (fetchInstr s).1 (fetchInstr s).2

/-- `s` with the table word `w` stored where `step` fetches next, and RUNNING, without which nothing is fetched (log
entry 7). -/
def State.withFetchWord (s : State) (nbits w : Nat) : State :=
  (s.loadBytes s.p (tableBytes nbits w)).setStatus .running

end Sys2Proof.Machine
end

