-- ==== Sys2Proof/Machine/Access.lean ====
section
/-! DEFINITION. What an instruction accesses: the register table of 10_state.md R26 and the bus transactions of
00_scope.md R15 in the order of 20_memory.md R51. Both are read from the spec beside the meanings, not computed from
them; the obligations hold the two together. -/
namespace Sys2Proof.Machine

/-- "Written by" of R26, beside the fetch increment of `p`, which every instruction has. `SHRC` writes `c` only when
`SHRC_CARRY = as_SHR`; the conditional jumps write `p` only when taken. -/
def regsWritten (P : Params) : Instr → List Reg
  | .hlt => []
  | .nop => []
  | .adr _ _ => [.h, .l]
  | .lda => [.a]
  | .sta => []
  | .ldb => [.b]
  | .swp => [.a, .b]
  | .ldh => [.h]
  | .ldl => [.l]
  | .sth => [.a]
  | .stl => [.a]
  | .ldq => [.q]
  | .stq => [.a]
  | .cla _ => [.a]
  | .clb _ => [.b]
  | .clq _ => [.q]
  | .add => [.a, .c]
  | .addc => [.a, .c]
  | .sub => [.a, .c]
  | .subc => [.a, .c]
  | .shl => [.a, .c]
  | .slhc => [.a, .c]
  | .shr => [.a, .c]
  | .shrc => match P.shrcCarry with
    | .asShr => [.a, .c]
    | .unchanged => [.a]
  | .and => [.a]
  | .or => [.a]
  | .xor => [.a]
  | .nand => [.a]
  | .nor => [.a]
  | .xnor => [.a]
  | .cksm => [.c]
  | .cksmc => [.c]
  | .incr => [.q]
  | .decr => [.q]
  | .jmp => [.p]
  | .jmpc => [.p]
  | .jmpz => [.p]
  | .jmpq => [.p]
  | .psh => [.s]
  | .pop => [.a, .s]
  | .subr => [.s, .p]
  | .ret => [.h, .l, .s]
  | .unimpl16to19 _ => []
  | .unimpl46to47 _ => []
  | .unimpl48to63 _ => []
  | .unimpl64to127 _ => []
  | .unimpl128to255 _ => []

/-- "Read by" of R26, beside the fetch's reading of `p`: `r` is read as `h` and `l`, `z` as `q`. -/
def regsRead : Instr → List Reg
  | .hlt => []
  | .nop => []
  | .adr _ _ => []
  | .lda => [.h, .l]
  | .sta => [.a, .h, .l]
  | .ldb => [.a]
  | .swp => [.a, .b]
  | .ldh => [.a]
  | .ldl => [.a]
  | .sth => [.h]
  | .stl => [.l]
  | .ldq => [.a]
  | .stq => [.q]
  | .cla _ => []
  | .clb _ => []
  | .clq _ => []
  | .add => [.a, .b]
  | .addc => [.a, .b, .c]
  | .sub => [.a, .b]
  | .subc => [.a, .b, .c]
  | .shl => [.a]
  | .slhc => [.a, .c]
  | .shr => [.a]
  | .shrc => [.a, .c]
  | .and => [.a, .b]
  | .or => [.a, .b]
  | .xor => [.a, .b]
  | .nand => [.a, .b]
  | .nor => [.a, .b]
  | .xnor => [.a, .b]
  | .cksm => [.a]
  | .cksmc => [.a, .c]
  | .incr => [.q]
  | .decr => [.q]
  | .jmp => [.h, .l]
  | .jmpc => [.h, .l, .c]
  | .jmpz => [.q, .h, .l]
  | .jmpq => [.q, .h, .l]
  | .psh => [.a, .s]
  | .pop => [.s]
  | .subr => [.h, .l, .s, .p]
  | .ret => [.s]
  | .unimpl16to19 _ => []
  | .unimpl46to47 _ => []
  | .unimpl48to63 _ => []
  | .unimpl64to127 _ => []
  | .unimpl128to255 _ => []

/-- A one-cell transaction on the memory bus (R15), with the 16-bit address and the unmasked data of the engine. -/
inductive BusEvent
  | read (addr : Word)
  | write (addr : Word) (data : Byte)
deriving DecidableEq, Repr

/-- The data accesses of an instruction, in the order its rule performs them (R51), in the state after its fetches. -/
def dataAccesses (i : Instr) (s : State) : List BusEvent :=
  match i with
  | .hlt => []
  | .nop => []
  | .adr _ _ => []
  | .lda => [.read s.r]
  | .sta => [.write s.r s.a]
  | .ldb => []
  | .swp => []
  | .ldh => []
  | .ldl => []
  | .sth => []
  | .stl => []
  | .ldq => []
  | .stq => []
  | .cla _ => []
  | .clb _ => []
  | .clq _ => []
  | .add => []
  | .addc => []
  | .sub => []
  | .subc => []
  | .shl => []
  | .slhc => []
  | .shr => []
  | .shrc => []
  | .and => []
  | .or => []
  | .xor => []
  | .nand => []
  | .nor => []
  | .xnor => []
  | .cksm => []
  | .cksmc => []
  | .incr => []
  | .decr => []
  | .jmp => []
  | .jmpc => []
  | .jmpz => []
  | .jmpq => []
  | .psh => [.write s.stackAddr s.a]
  | .pop => [.read (stackSlot (s.s + 1#8))]
  | .subr => [.write s.stackAddr (hiByte s.p), .write (stackSlot (s.s - 1#8)) (loByte s.p)]
  | .ret => [.read (stackSlot (s.s + 1#8)), .read (stackSlot (s.s + 2#8))]
  | .unimpl16to19 _ => []
  | .unimpl46to47 _ => []
  | .unimpl48to63 _ => []
  | .unimpl64to127 _ => []
  | .unimpl128to255 _ => []

/-- The `n` fetches from `p` on, each at the next address modulo 65536 (00_scope.md R12). -/
def fetchReads (p : Word) : Nat → List BusEvent
  | 0 => []
  | n + 1 => .read p :: fetchReads (p + 1#16) n

/-- The transactions of the next step, in order: none in HALTED (60_exceptions.md R193); else the opcode fetch, the
immediate fetches, the data accesses (R51). -/
def busTrace (s : State) : List BusEvent :=
  match s.status with
  | .halted => []
  | .running => fetchReads s.p (fetchInstr s).1.size ++ dataAccesses (fetchInstr s).1 (fetchInstr s).2

/-- The cells after the bus has taken a transaction (R15). -/
def BusEvent.apply (P : Params) (m : Memory) : BusEvent → Memory
  | .read _ => m
  | .write addr data => busStore P m addr data

end Sys2Proof.Machine
end

