-- ==== Sys2Proof/Machine/Idioms.lean ====
section
/-! DEFINITION. The three idioms of 30_encoding.md R73, each a shorthand for the listed instructions; the decoder never
sees them. -/
namespace Sys2Proof.Machine

/-- `CALL target`. -/
def idiomCall (target : Word) : List Instr := [.adr (hiByte target) (loByte target), .subr]

/-- `RETURN`. -/
def idiomReturn : List Instr := [.ret, .jmp]

/-- `GOTO target`, and `BRANCHcc target` with `JMPC`, `JMPZ` or `JMPQ` for `jump`. -/
def idiomGoto (jump : Instr) (target : Word) : List Instr := [.adr (hiByte target) (loByte target), jump]

end Sys2Proof.Machine
end

