-- ==== Sys2Proof/Machine/Launch.lean ====
section
/-! DEFINITION. How a block comes to its first step: the launch image (20_memory.md R55), the boot order
(70_reset_and_hazards.md R202) and the restart (R201). -/
namespace Sys2Proof.Machine

/-- An entry of the launch image: a value, or `none` for a blank, which leaves its cell at the default (R55). -/
abbrev ImageEntry := Option Nat

/-- An image value is from 0 to 255 (R55, 92_eei_decisions.md D5). -/
def ImageEntry.ok : ImageEntry → Bool
  | none => true
  | some v => v ≤ 255

/-- The cells from `i` on after the entries are placed in address order, without the write mask (R55). -/
def loadImage (m : Memory) (i : Nat) : List ImageEntry → Memory
  | [] => m
  | none :: es => loadImage m (i + 1) es
  | some v :: es => loadImage (Memory.write m i (BitVec.ofNat 8 v)) (i + 1) es

/-- The boot order of R202: parameters, a memory of all 0, the image, reset. `none` for the image is a load that
failed (R183). Entries past the 2^N cells are not loaded (R55, 93_implementation_defined.md I12) and so not looked at
(log entry 9). -/
def launch (P : Params) (image : Option (List ImageEntry)) : Host.Outcome State Fault Refusal :=
  if P.Legal then
    match image with
    | none => .fault .loaderFailed
    | some es =>
      if (es.take P.cells).all ImageEntry.ok then
        .next (State.resetOver P (loadImage [] 0 (es.take P.cells)))
      else .refused .imageValueTooLarge
  else .refused .illegalParams

/-- R201: the registers and the running status as after reset, the memory as the run left it. -/
def State.restart (s : State) : State := State.resetOver s.params s.mem

end Sys2Proof.Machine
end

