-- ==== Sys2Proof/Machine/RegFile.lean ====
section
/-! DEFINITION. The register file as the spec names it: `x[n]`, `x[n] <- v`, the host's observation of a register
(00_scope.md R9, R10, R17) and the name-indexed register API (60_exceptions.md R182), which no instruction uses. -/
namespace Sys2Proof.Machine

/-- The declared widths (10_state.md R20). -/
def Reg.width : Reg → Nat
  | .a | .b | .q | .h | .l | .s => 8
  | .p => 16
  | .c => 1

/-- `x[n]` for a physical register, an unsigned value (R7, R22). -/
def State.getReg (s : State) : Reg → Nat
  | .a => s.a.toNat
  | .b => s.b.toNat
  | .q => s.q.toNat
  | .h => s.h.toNat
  | .l => s.l.toNat
  | .s => s.s.toNat
  | .p => s.p.toNat
  | .c => s.c.toNat

/-- What the host observes of a register, physical or derived (R17). -/
def State.observe (s : State) : RegName → Nat
  | .phys n => s.getReg n
  | .r => s.r.toNat
  | .z => s.z.toNat

/-- `x[n] <- v`: the value is reduced modulo 2^width (R10, R21). -/
def State.setReg (s : State) (n : Reg) (v : Int) : State :=
  match n with
  | .a => s.setA (BitVec.ofInt 8 v)
  | .b => s.setB (BitVec.ofInt 8 v)
  | .q => s.setQ (BitVec.ofInt 8 v)
  | .h => s.setH (BitVec.ofInt 8 v)
  | .l => s.setL (BitVec.ofInt 8 v)
  | .s => s.setS (BitVec.ofInt 8 v)
  | .p => s.setP (BitVec.ofInt 16 v)
  | .c => s.setC (BitVec.ofInt 1 v)

/-- The ten names {a,b,q,h,l,p,s,c,r,z} of R182. -/
def RegName.ofString (name : String) : Option RegName :=
  match name.toList with
  | ['a'] => some (.phys .a)
  | ['b'] => some (.phys .b)
  | ['q'] => some (.phys .q)
  | ['h'] => some (.phys .h)
  | ['l'] => some (.phys .l)
  | ['s'] => some (.phys .s)
  | ['p'] => some (.phys .p)
  | ['c'] => some (.phys .c)
  | ['r'] => some .r
  | ['z'] => some .z
  | _ => none

/-- The API's get: a fault of the API on a name outside the ten (R182). -/
def regGet (s : State) (name : String) : Host.Outcome Nat Fault Refusal :=
  match RegName.ofString name with
  | some n => .next (s.observe n)
  | none => .fault .unknownRegister

/-- The API's set: a fault of the API on an unknown name and on `r` and `z` (R25, R182). -/
def regSet (s : State) (name : String) (v : Int) : Host.Outcome State Fault Refusal :=
  match RegName.ofString name with
  | some (.phys n) => .next (s.setReg n v)
  | some .r => .fault .unknownRegister
  | some .z => .fault .unknownRegister
  | none => .fault .unknownRegister

end Sys2Proof.Machine
end

