-- ==== Sys2Proof/Machine/Run.lean ====
section
/-! DEFINITION. A run as the host drives it (00_scope.md R16, R18; 60_exceptions.md R194; 92_eei_decisions.md D23). -/
namespace Sys2Proof.Machine

/-- At most `fuel` steps, stopping at the first one that reports `false`; the state after that step is the final
state. `none`: no final state was reached, the host having stopped first (R18). -/
def drive : Nat → State → Option State
  | 0, _ => none
  | fuel + 1, s =>
    match step s with
    | .next t => if t.report then drive fuel t else some t
    | .fault _ => none
    | .refused _ => none

end Sys2Proof.Machine
end

