-- ==== Sys2Proof/Safety.lean ====
section
/-! DEFINITION. The terms the claims use: the invariant of every state the block can be in, and small predicates over
states and instructions. -/
namespace Sys2Proof

/-- The instructions that halt: `HLT` and the five unimplemented rows. -/
def Instr.Halting (i : Instr) : Prop :=
  i = .hlt ∨ ∃ op, i = .unimpl16to19 op ∨ i = .unimpl46to47 op ∨ i = .unimpl48to63 op ∨ i = .unimpl64to127 op ∨
    i = .unimpl128to255 op

/-- The instructions that store to memory (20_memory.md R51). -/
def Instr.Storing (i : Instr) : Prop := i = .sta ∨ i = .psh ∨ i = .subr

end Sys2Proof

namespace Sys2Proof.Machine

/-- Legal parameters (00_scope.md R5) and cells in canonical form with indices below 2^N (10_state.md R31). -/
abbrev State.Inv (s : State) : Prop := s.params.Legal ∧ Memory.wf s.params.cells s.mem = true

/-- An opcode byte that halts: 0 (`HLT`) or an unimplemented one, 16 to 19 and 46 to 255 (30_encoding.md R64,
60_exceptions.md R181). -/
abbrev HaltsOn (op : Byte) : Prop :=
  op.toNat = 0 ∨ (16 ≤ op.toNat ∧ op.toNat ≤ 19) ∨ 46 ≤ op.toNat

/-- Two addresses reach the same cell (20_memory.md R41). -/
abbrev SameCell (P : Params) (x y : Word) : Prop := cellOf P x = cellOf P y

/-- The bytes at `addr`, `addr + 1`, … (modulo 65536). -/
def State.bytesAt (s : State) (addr : Word) : Nat → List Byte
  | 0 => []
  | n + 1 => s.memRead addr :: s.bytesAt (addr + 1#16) n

/-- No register, no status and no parameter differs; the cells may. -/
def SameButMem (s t : State) : Prop := s.setMem [] = t.setMem []

/-- `CKSMC` run on each byte in turn, placed in `a` (43_logic_and_parity.md R127). -/
def checksumRun : List Byte → State → State
  | [], s => s
  | v :: vs, s =>
    match exec .cksmc (s.setA v) with
    | .next t => checksumRun vs t
    | .fault _ => s
    | .refused _ => s

end Sys2Proof.Machine
end

