-- ==== Sys2Proof/Certificates/Slice0/Obligations.lean ====
section
/-! DEFINITION. The statements for the provers. In an `exec` statement the state is the one after the instruction's
fetches (30_encoding.md R71), so `s.p` is the address after its last byte; a `{ s with … }` on the right says that
every other register, the status, the parameters and every cell are as before (R70, the spec's own decision D6 of
92_eei_decisions.md). -/
open Sys2Proof Sys2Proof.Machine

/-! ### Reset, register file, derived registers -/

/-- R32, R200: reset gives every register its value and RUNNING, and leaves the cells alone; the derived registers are
then r = 0 and z = 1. The model's reset state is such a state. That reset leaves the cells alone is the spec's own
decision (92_eei_decisions.md D19). -/
def Obligations.ResetGivesTheSpecifiedValues : Prop :=
  (∀ P m,
    let s := State.resetOver P m
    s.a = 0 ∧ s.b = 0 ∧ s.q = 0 ∧ s.h = 0 ∧ s.l = 0 ∧ s.s.toNat = 255 ∧ s.p = 0 ∧ s.c = 0 ∧
      s.status = .running ∧ s.mem = m ∧ s.r.toNat = 0 ∧ s.z = 1) ∧
  ∃ P m, State.reset = State.resetOver P m

/-- R193, R201: a HALTED block stays as it is until a restart; a restart is the reset state over the memory the run
left, RUNNING again. That a step of a HALTED block changes nothing (92_eei_decisions.md D14) and that a restart
keeps the memory (D19) are the spec's own decisions. -/
def Obligations.RestartResetsRegistersAndKeepsMemory : Prop :=
  ∀ s : State,
    (s.status = .halted → step s = .next s) ∧
    s.restart = State.resetOver s.params s.mem ∧ s.restart.report = true ∧
    ∀ addr, s.restart.memRead addr = s.memRead addr

/-- R21: a write of any integer stores it modulo 2^width, and nothing else changes. -/
def Obligations.RegisterWriteReducesToItsWidth : Prop :=
  ∀ (s : State) (n : Reg) (v : Int),
    ((s.setReg n v).getReg n : Int) = v % 2 ^ n.width ∧
    (∀ m, m ≠ n → (s.setReg n v).getReg m = s.getReg m) ∧
    (s.setReg n v).status = s.status ∧ (s.setReg n v).mem = s.mem ∧ (s.setReg n v).params = s.params

/-- R182: the name-indexed API faults on a name outside the ten and on a set of `r` or `z`; no step causes it. That such a
call fails is the spec's own decision (92_eei_decisions.md D21). -/
def Obligations.RegisterApiFaultsOnUnknownNames : Prop :=
  (∀ (s : State) (name : String) (v : Int),
    name ∉ ["a", "b", "q", "h", "l", "p", "s", "c", "r", "z"] →
      regGet s name = .fault .unknownRegister ∧ regSet s name v = .fault .unknownRegister) ∧
  (∀ (s : State) (v : Int), regSet s "r" v = .fault .unknownRegister ∧ regSet s "z" v = .fault .unknownRegister) ∧
  (∀ s : State, regGet s "r" = .next s.r.toNat ∧ regGet s "z" = .next s.z.toNat) ∧
  ∀ s f, step s ≠ .fault f

/-- R23, R24: `r` is `h*256 + l`, and `z` is 1 exactly when `q` is 0, in every state. -/
def Obligations.DerivedRegistersFollowTheirSources : Prop :=
  ∀ s : State, s.r.toNat = s.h.toNat * 256 + s.l.toNat ∧ (s.z.toNat = if s.q.toNat = 0 then 1 else 0)

/-! ### Memory -/

/-- R43: a write stores `v mod 2^W` in the one cell its address reaches and changes nothing else. -/
def Obligations.MemWriteStoresMaskedValueInOneCell : Prop :=
  ∀ (s : State) (x : Word) (v : Byte), s.Inv →
    ((s.memWrite x v).memRead x).toNat = v.toNat % 2 ^ s.params.writeWidth ∧
    (s.params.writeWidth = 8 → (s.memWrite x v).memRead x = v) ∧
    (∀ y, ¬ SameCell s.params y x → (s.memWrite x v).memRead y = s.memRead y) ∧
    SameButMem (s.memWrite x v) s

/-- R41: addresses that agree modulo 2^N read and write one cell, and a write through one is seen through another
exactly when they agree; with N = 16 that is the address itself, and with a smaller N every cell is reached by 65536
/ 2^N of the 65536 addresses. -/
def Obligations.AddressesAliasModuloMemorySize : Prop :=
  ∀ s : State, s.params.addrWidth ≤ 16 →
    (∀ x y v, x.toNat % 2 ^ s.params.addrWidth = y.toNat % 2 ^ s.params.addrWidth →
      s.memRead x = s.memRead y ∧ s.memWrite x v = s.memWrite y v) ∧
    (s.Inv → ∀ x y v, ((s.memWrite x v).memRead y).toNat =
      if x.toNat % 2 ^ s.params.addrWidth = y.toNat % 2 ^ s.params.addrWidth
      then v.toNat % 2 ^ s.params.writeWidth else (s.memRead y).toNat) ∧
    (s.params.addrWidth = 16 → ∀ x y, SameCell s.params x y → x = y) ∧
    ∀ k, k < 2 ^ s.params.addrWidth →
      (List.range 65536).countP (fun addr => cellOf s.params (BitVec.ofNat 16 addr) = k) = 65536 / 2 ^ s.params.addrWidth

/-- Memory is canonical: two well-formed memories whose cells all read alike are the same list. -/
def Obligations.CanonicalMemoriesWithEqualReadsAreEqual : Prop :=
  ∀ (n : Nat) (m m' : Memory), Memory.wf n m = true → Memory.wf n m' = true →
    (∀ i, i < n → Memory.read m i = Memory.read m' i) → m = m'

/-- R49: the cell of the stack slot; for N ≤ 8 it is `s mod 2^N`, and with N = 16 it is the address `0xFF00 + s`. The slots
of `s` and `s - 1`, the two that `SUBR` writes, are never one cell, whatever N (92_eei_decisions.md D16). -/
def Obligations.StackSlotCells : Prop :=
  ∀ s : State, s.params.Legal →
    cellOf s.params s.stackAddr = (0xFF00 + s.s.toNat) % 2 ^ s.params.addrWidth ∧
    (s.params.addrWidth ≤ 8 → cellOf s.params s.stackAddr = s.s.toNat % 2 ^ s.params.addrWidth) ∧
    (s.params.addrWidth = 16 → cellOf s.params s.stackAddr = 0xFF00 + s.s.toNat) ∧
    cellOf s.params (stackSlot (s.s - 1#8)) ≠ cellOf s.params s.stackAddr

/-- R53: a store into the next instruction's cell is what the next fetch reads. -/
def Obligations.StoreIsSeenByTheNextFetch : Prop :=
  ∀ s : State, s.Inv → SameCell s.params s.p s.r →
    ∃ t, exec .sta s = .next t ∧ t.fetch8.1.toNat = s.a.toNat % 2 ^ s.params.writeWidth ∧ t.fetch8.2.p = s.p + 1#16

/-- 10_state.md R31: whatever a step changes in a cell is below 2^W. -/
def Obligations.ChangedCellsHoldValuesBelowWriteWidth : Prop :=
  ∀ s t : State, s.Inv → step s = .next t →
    ∀ addr, t.memRead addr = s.memRead addr ∨ (t.memRead addr).toNat < 2 ^ s.params.writeWidth

/-! ### Launch -/

/-- R55: the image at cells 0, 1, 2, …, a blank and every cell past it 0, entries past 2^N not loaded, no write mask; an
image of any length with a value above 255 among its first 2^N entries is refused. The missing write mask and the
bound 255 are the spec's own decisions (92_eei_decisions.md D5). -/
def Obligations.LaunchPlacesTheImage : Prop :=
  ∀ (P : Params) (es : List ImageEntry), P.Legal →
    ((∀ e ∈ es, ∀ v, e = some v → v ≤ 255) →
      ∃ s, launch P (some es) = .next s ∧ s.Inv ∧ SameButMem s (State.resetOver P []) ∧
        ∀ i, i < 2 ^ P.addrWidth → (Memory.read s.mem i).toNat = (es[i]?.getD none).getD 0) ∧
    ((∃ e ∈ es.take (2 ^ P.addrWidth), ∃ v, e = some v ∧ 255 < v) →
      launch P (some es) = .refused .imageValueTooLarge)

/-- R183: without a loaded image there is no launch. With parameters outside the legal values of R5 there is none
either: that launch then answers a refusal is the model's reading (log entry 9, DEDUCED), and the bounds 16 and 8
are the spec's own decisions (92_eei_decisions.md D3, D4). -/
def Obligations.NoLaunchWithoutImageOrLegalParameters : Prop :=
  (∀ P, P.Legal → launch P none = .fault .loaderFailed) ∧
  ∀ P image, (P.addrWidth = 0 ∨ 16 < P.addrWidth ∨ P.writeWidth = 0 ∨ 8 < P.writeWidth) →
    launch P image = .refused .illegalParams

/-! ### Encoding -/

/-- Decoding the bytes of a well-formed instruction gives it back, with every operand, and leaves the rest. -/
def Obligations.DecodeOfEncodeIsTheInstruction : Prop :=
  ∀ (i : Instr) (rest : List Byte), WellFormed i → decode (encode i ++ rest) = .ok (i, rest)

/-- R66: what the decoder accepts is the encoding of the instruction it names, so no two byte sequences stand for one
instruction; and that instruction is well-formed. -/
def Obligations.DecodedBytesAreTheEncoding : Prop :=
  ∀ (bytes rest : List Byte) (i : Instr), decode bytes = .ok (i, rest) → WellFormed i ∧ encode i ++ rest = bytes

/-- R65: every opcode decodes, to one of the 42 instructions or to an unimplemented row, the latter exactly for 16 to 19
and 46 to 255. -/
def Obligations.DecoderIsTotalOnOpcodes : Prop :=
  ∀ (op i1 i2 : Byte) (rest : List Byte),
    ∃ i rest', decode (op :: i1 :: i2 :: rest) = .ok (i, rest') ∧
      ((i.Halting ∧ i ≠ .hlt) ↔ (16 ≤ op.toNat ∧ op.toNat ≤ 19) ∨ 46 ≤ op.toNat) ∧
      (i = .hlt ↔ op.toNat = 0)

/-- R60: the opcode alone fixes the length: 3 for opcode 2, 2 for opcodes 13, 14 and 15, 1 for every other; decoding
fails exactly when fewer bytes are there. -/
def Obligations.OpcodeFixesTheLength : Prop :=
  ∀ (op : Byte) (bytes : List Byte),
    let n := if op.toNat = 2 then 3 else if op.toNat = 13 ∨ op.toNat = 14 ∨ op.toNat = 15 then 2 else 1
    ((∃ e, decode (op :: bytes) = .error e) ↔ bytes.length + 1 < n) ∧
    ∀ i rest, decode (op :: bytes) = .ok (i, rest) → i.size = n ∧ bytes.length + 1 = n + rest.length

/-- R63: bytes written out from the opcode map, one instruction of every family, decode to it. -/
def Obligations.SampleEncodingsDecode : Prop :=
  decode [0b00000000, 7] = .ok (.hlt, [7]) ∧
  decode [0b00000010, 0x12, 0x34] = .ok (.adr 0x12 0x34, []) ∧
  decode [0b00001101, 0xA5] = .ok (.cla 0xA5, []) ∧
  decode [0b00010111] = .ok (.subc, []) ∧
  decode [0b00011001] = .ok (.slhc, []) ∧
  decode [0b00100001] = .ok (.xnor, []) ∧
  decode [0b00101001] = .ok (.jmpq, []) ∧
  decode [0b00101100] = .ok (.subr, []) ∧
  decode [0b00010011] = .ok (.unimpl16to19 19, [])

/-! ### The step -/

/-- A RUNNING block whose bytes at `p` decode to an instruction executes it, with `p` moved past its bytes, modulo
65536. -/
def Obligations.StepRunsTheDecodedInstruction : Prop :=
  ∀ (s : State) (i : Instr) (rest : List Byte), s.status = .running → decode (s.bytesAt s.p 3) = .ok (i, rest) →
    step s = exec i { s with p := s.p + BitVec.ofNat 16 i.size }

/-- R193: HALTED is terminal: any number of steps changes nothing, touches the bus not at all, and reports `false`. This
is the spec's own decision (92_eei_decisions.md D14). -/
def Obligations.HaltedBlockStaysAsItIs : Prop :=
  ∀ (s : State) (n : Nat), s.status = .halted →
    Host.Core.run Sys2Proof.core n s = .next s ∧ busTrace s = [] ∧ s.report = false

/-- R181: a step of a RUNNING block halts exactly when its opcode is 0 or unimplemented; it then changes only `p`, by one,
and the status, reports `false`, and the halting opcode can be read at `p - 1`. Every other step reports `true`. That
`p` stays advanced is the spec's own decision (92_eei_decisions.md D13). -/
def Obligations.BlockHaltsExactlyOnHltAndUnimplementedOpcodes : Prop :=
  ∀ s : State, s.status = .running →
    ∃ t, step s = .next t ∧ (t.report = false ↔ HaltsOn (s.memRead s.p)) ∧ (t.report = true ↔ t.status = .running) ∧
      (HaltsOn (s.memRead s.p) →
        t = { s with p := s.p + 1#16, status := .halted } ∧ t.memRead (t.p - 1#16) = s.memRead s.p)

/-- R180: every instruction completes on every input, and so does every step. -/
def Obligations.NothingRaisesAnException : Prop :=
  (∀ (i : Instr) (s : State), ∃ t, exec i s = .next t) ∧ ∀ s : State, ∃ t, step s = .next t

/-- R29: no step changes the parameters; every instruction but `SHRC` acts alike under two settings of `SHRC_CARRY`, and
every instruction with no data access acts alike under any N and W. -/
def Obligations.ParametersAreFixed : Prop :=
  (∀ s t : State, step s = .next t → t.params = s.params) ∧
  (∀ (i : Instr) (s t : State) (k : ShrcCarry), i ≠ .shrc → exec i s = .next t →
    exec i { s with params := { s.params with shrcCarry := k } } =
      .next { t with params := { t.params with shrcCarry := k } }) ∧
  ∀ (i : Instr) (s t : State) (n w : Nat), dataAccesses i s = [] → exec i s = .next t →
    exec i { s with params := { s.params with addrWidth := n, writeWidth := w } } =
      .next { t with params := { t.params with addrWidth := n, writeWidth := w } }

/-- R18: a run ends at the first step that reports `false`, with the state after it as its final state; a step that
reports `true` goes on to the rest of the run. A final state is HALTED, and no further step or fuel changes it. That
a HALTED block stays as it is, is the spec's own decision (92_eei_decisions.md D14), as is the run with fuel (D23),
in the form of log entry 13 (DEDUCED). -/
def Obligations.FinalStateOfARunIsHaltedAndStable : Prop :=
  (∀ (n : Nat) (s t : State), step s = .next t →
    (t.report = false → drive (n + 1) s = some t) ∧ (t.report = true → drive (n + 1) s = drive n t)) ∧
  ∀ (n : Nat) (s t : State), drive n s = some t →
    t.status = .halted ∧ step t = .next t ∧ ∀ k, drive (n + k) s = some t

/-- R194, R142: a `JMP` to its own address is its own next state and never reaches a final one. That such a run has no
final state, however many steps the host requests, is the spec's own decision (92_eei_decisions.md D23), in the form
of log entry 13 (DEDUCED): `drive` answers none when its fuel ends. -/
def Obligations.JumpToItselfNeverHalts : Prop :=
  ∀ s : State, s.status = .running → s.memRead s.p = 0x26#8 → s.r = s.p →
    step s = .next s ∧ ∀ n, drive n s = none

/-! ### Invariants of every step -/

/-- Every step keeps legal parameters and the canonical form of the cells. -/
def Obligations.EveryStepKeepsTheInvariant : Prop :=
  ∀ s t : State, s.Inv → step s = .next t → t.Inv

/-- The invariant holds at reset, whose cells all read the default 0 (the model's choice of an empty image, log entry 6),
and at every restart of a state that meets it. -/
def Obligations.ResetMeetsTheInvariant : Prop :=
  State.reset.Inv ∧ (∀ addr, State.reset.memRead addr = 0) ∧ ∀ s : State, s.Inv → s.restart.Inv

/-! ### The bus -/

/-- R15, R51: the cells after a step are the cells before it with the write transactions of the step applied in order.
The form of the port and the order of its transactions are the spec's own decisions (92_eei_decisions.md D2, D16). -/
def Obligations.MemoryFollowsTheBusTrace : Prop :=
  ∀ s t : State, step s = .next t → t.mem = (busTrace s).foldl (BusEvent.apply s.params) s.mem

/-- R15: a step depends on no cell but those its read transactions name. Two blocks that differ only in other cells
issue the same transactions and end in the same registers and status. The form of the port and the order of its
transactions are the spec's own decisions (92_eei_decisions.md D2, D16). -/
def Obligations.StepDependsOnlyOnTheCellsItReads : Prop :=
  ∀ s s' t t' : State, SameButMem s s' → (∀ addr, .read addr ∈ busTrace s → s'.memRead addr = s.memRead addr) →
    step s = .next t → step s' = .next t' → busTrace s' = busTrace s ∧ SameButMem t t'

/-! ### Frames -/

/-- R70, R26: an instruction writes no register but those the table lists for it, and only a halting one writes the
status. The frame rule is the spec's own decision (92_eei_decisions.md D6). -/
def Obligations.InstructionWritesOnlyItsListedRegisters : Prop :=
  ∀ (i : Instr) (s t : State), exec i s = .next t →
    (∀ n, n ∉ regsWritten s.params i → t.getReg n = s.getReg n) ∧ (¬ i.Halting → t.status = s.status)

/-- R70: a step writes no register but those the table lists for its instruction, and `p`, which moves past the bytes
fetched where the table does not list it. The frame rule (92_eei_decisions.md D6), that `RET` leaves `p` alone (D11)
and that a halting step leaves `p` advanced (D13) are the spec's own decisions. -/
def Obligations.StepWritesOnlyItsListedRegisters : Prop :=
  ∀ (s t : State) (i : Instr) (rest : List Byte), s.status = .running → decode (s.bytesAt s.p 3) = .ok (i, rest) →
    step s = .next t →
      (∀ n, n ≠ .p → n ∉ regsWritten s.params i → t.getReg n = s.getReg n) ∧
      (Reg.p ∉ regsWritten s.params i → t.getReg .p = (s.getReg .p + i.size) % 65536) ∧
      (¬ i.Storing → ∀ addr, t.memRead addr = s.memRead addr)

/-- R70, R51: every instruction but `STA`, `PSH` and `SUBR` leaves every cell alone; `STA` writes the cell of `r`, `PSH`
the cell of the slot `0xFF00 + s`, `SUBR` the cells of that slot and of the slot of `s - 1`, and every other address
reads as before. The frame rule is the spec's own decision (92_eei_decisions.md D6). -/
def Obligations.InstructionWritesOnlyItsCells : Prop :=
  ∀ s t : State,
    (∀ i : Instr, ¬ i.Storing → exec i s = .next t → ∀ x, t.memRead x = s.memRead x) ∧
    (s.Inv →
      (exec .sta s = .next t → ∀ x, ¬ SameCell s.params x s.r → t.memRead x = s.memRead x) ∧
      (exec .psh s = .next t → ∀ x, ¬ SameCell s.params x s.stackAddr → t.memRead x = s.memRead x) ∧
      (exec .subr s = .next t → ∀ x, ¬ SameCell s.params x s.stackAddr →
        ¬ SameCell s.params x (stackSlot (s.s - 1#8)) → t.memRead x = s.memRead x))

/-- R26, "read by": what an instruction writes depends on no register but those the table lists for it. -/
def Obligations.InstructionReadsOnlyItsListedRegisters : Prop :=
  ∀ (i : Instr) (s s' t t' : State), s'.params = s.params → s'.mem = s.mem →
    (∀ n ∈ regsRead i, s'.getReg n = s.getReg n) → exec i s = .next t → exec i s' = .next t' →
      t'.mem = t.mem ∧ (∀ n ∈ regsWritten s.params i, n ≠ .p → t'.getReg n = t.getReg n) ∧
      (s'.p = s.p → t'.p = t.p)

/-! ### Results: moves and halt -/

/-- R80, R64: `HLT` and every unimplemented row set HALTED and change nothing else; with the fetch, `p` moves by one. That
`p` stays advanced is the spec's own decision (92_eei_decisions.md D13). -/
def Obligations.HaltingInstructionsOnlySetHalted : Prop :=
  ∀ (s : State) (op : Byte),
    exec .hlt s = .next { s with status := .halted } ∧
    exec (.unimpl16to19 op) s = .next { s with status := .halted } ∧
    exec (.unimpl46to47 op) s = .next { s with status := .halted } ∧
    exec (.unimpl48to63 op) s = .next { s with status := .halted } ∧
    exec (.unimpl64to127 op) s = .next { s with status := .halted } ∧
    exec (.unimpl128to255 op) s = .next { s with status := .halted } ∧
    (s.status = .running → HaltsOn (s.memRead s.p) → step s = .next { s with p := s.p + 1#16, status := .halted })

/-- R81: `NOP` does nothing beyond its fetch. -/
def Obligations.NopOnlyAdvancesP : Prop :=
  ∀ s : State, exec .nop s = .next s ∧
    (s.status = .running → s.memRead s.p = 1#8 → step s = .next { s with p := s.p + 1#16 })

/-- R82: the first immediate goes to `h`, the second to `l`; `p` moves by three, modulo 65536. -/
def Obligations.AdrSetsTheAddressPair : Prop :=
  ∀ s : State,
    (∀ hi lo, ∃ t, exec (.adr hi lo) s = .next t ∧ t = { s with h := hi, l := lo } ∧
      t.r.toNat = hi.toNat * 256 + lo.toNat) ∧
    (s.status = .running → s.memRead s.p = 2#8 →
      step s = .next { s with h := s.memRead (s.p + 1#16), l := s.memRead (s.p + 2#16), p := s.p + 3#16 })

/-- R93, R94, R95: `CLA`, `CLB`, `CLQ` write the byte after the opcode to `a`, `b`, `q`; `p` moves by two; `z` follows the
new `q`. -/
def Obligations.ImmediateLoadsWriteTheByteAfterTheOpcode : Prop :=
  ∀ s : State,
    (∀ imm, exec (.cla imm) s = .next { s with a := imm } ∧ exec (.clb imm) s = .next { s with b := imm } ∧
      ∃ t, exec (.clq imm) s = .next t ∧ t = { s with q := imm } ∧ (t.z = 1#1 ↔ imm.toNat = 0)) ∧
    (s.status = .running →
      (s.memRead s.p = 13#8 → step s = .next { s with a := s.memRead (s.p + 1#16), p := s.p + 2#16 }) ∧
      (s.memRead s.p = 14#8 → step s = .next { s with b := s.memRead (s.p + 1#16), p := s.p + 2#16 }) ∧
      (s.memRead s.p = 15#8 → step s = .next { s with q := s.memRead (s.p + 1#16), p := s.p + 2#16 }))

/-- R83: `LDA` loads `a` from the cell `r mod 2^N`. -/
def Obligations.LdaLoadsTheCellOfR : Prop :=
  ∀ s : State, exec .lda s =
    .next { s with a := Memory.read s.mem ((s.h.toNat * 256 + s.l.toNat) % 2 ^ s.params.addrWidth) }

/-- R84: `STA` stores `a mod 2^W` in the cell `r mod 2^N`, the only cell changed. -/
def Obligations.StaStoresAInTheCellOfR : Prop :=
  ∀ s : State, s.Inv → ∃ t, exec .sta s = .next t ∧ SameButMem t s ∧
    ∀ i, i < 2 ^ s.params.addrWidth → (Memory.read t.mem i).toNat =
      if i = (s.h.toNat * 256 + s.l.toNat) % 2 ^ s.params.addrWidth then s.a.toNat % 2 ^ s.params.writeWidth
      else (Memory.read s.mem i).toNat

/-- R85, R87 to R92: the register copies, with what becomes of `r` and `z`. -/
def Obligations.RegisterCopies : Prop :=
  ∀ s : State,
    exec .ldb s = .next { s with b := s.a } ∧
    (∃ t, exec .ldh s = .next t ∧ t = { s with h := s.a } ∧ t.r.toNat = s.a.toNat * 256 + s.l.toNat) ∧
    (∃ t, exec .ldl s = .next t ∧ t = { s with l := s.a } ∧ t.r.toNat = s.h.toNat * 256 + s.a.toNat) ∧
    exec .sth s = .next { s with a := s.h } ∧
    exec .stl s = .next { s with a := s.l } ∧
    (∃ t, exec .ldq s = .next t ∧ t = { s with q := s.a } ∧ (t.z = 1#1 ↔ s.a.toNat = 0)) ∧
    exec .stq s = .next { s with a := s.q }

/-- R86: `SWP` exchanges `a` and `b`; two in a row restore both; with `a = b` nothing changes. -/
def Obligations.SwpExchangesAandB : Prop :=
  ∀ s : State, ∃ t, exec .swp s = .next t ∧ t = { s with a := s.b, b := s.a } ∧ exec .swp t = .next s ∧
    (s.a = s.b → t = s)

/-! ### Results: arithmetic and shifts -/

/-- R100, R101: the sum modulo 256, and `c` = 1 exactly when it does not fit in 8 bits. -/
def Obligations.AdditionResults : Prop :=
  ∀ s : State,
    (∃ t, exec .add s = .next t ∧ t = { s with a := t.a, c := t.c } ∧
      t.c.toNat * 256 + t.a.toNat = s.a.toNat + s.b.toNat) ∧
    (∃ t, exec .addc s = .next t ∧ t = { s with a := t.a, c := t.c } ∧
      t.c.toNat * 256 + t.a.toNat = s.a.toNat + s.b.toNat + s.c.toNat)

/-- R102, R103: `a <- (a - b) mod 256` and `c <- (a < b)`; `SUBC` adds the old carry: `a <- (a - b + c) mod 256` and `c <-
(a + c < b)`. Which value `c` tests, and the formula of `SUBC`, are the spec's own decisions (92_eei_decisions.md D7,
D22). -/
def Obligations.SubtractionResults : Prop :=
  ∀ s : State,
    (∃ t, exec .sub s = .next t ∧ t = { s with a := t.a, c := t.c } ∧
      (t.a.toNat : Int) = (s.a.toNat - s.b.toNat : Int) % 256 ∧ (t.c = 1#1 ↔ s.a.toNat < s.b.toNat)) ∧
    (∃ t, exec .subc s = .next t ∧ t = { s with a := t.a, c := t.c } ∧
      (t.a.toNat : Int) = (s.a.toNat - s.b.toNat + s.c.toNat : Int) % 256 ∧
      (t.c = 1#1 ↔ s.a.toNat + s.c.toNat < s.b.toNat))

/-- R101: `ADD` on the low bytes and then `ADDC` on the high bytes adds two 16-bit numbers, carry out in `c`. -/
def Obligations.AddThenAddcAddsSixteenBits : Prop :=
  ∀ (s : State) (ah bh : Byte), ∃ t u, exec .add s = .next t ∧ exec .addc { t with a := ah, b := bh } = .next u ∧
    u.c.toNat * 65536 + u.a.toNat * 256 + t.a.toNat =
      (ah.toNat * 256 + s.a.toNat) + (bh.toNat * 256 + s.b.toNat)

/-- R103: `SUB` on the low bytes and then `SUBC` on the high bytes does not subtract 16-bit numbers: on a borrow the
result is 0x200 too high. It rests on the spec's own decisions on the formula of `SUBC` and the carry of `SUB`
(92_eei_decisions.md D7, D22). -/
def Obligations.SubThenSubcIsOffByTheBorrow : Prop :=
  ∀ (s : State) (ah bh : Byte), ∃ t u, exec .sub s = .next t ∧ exec .subc { t with a := ah, b := bh } = .next u ∧
    ((u.a.toNat * 256 + t.a.toNat : Nat) : Int) =
      ((ah.toNat * 256 + s.a.toNat : Int) - (bh.toNat * 256 + s.b.toNat) +
        if s.a.toNat < s.b.toNat then 0x200 else 0) % 65536

/-- R110, R112: the shifts by one; `c` gets the bit shifted out. -/
def Obligations.ShiftByOneResults : Prop :=
  ∀ s : State,
    (∃ t, exec .shl s = .next t ∧ t = { s with a := t.a, c := t.c } ∧
      t.c.toNat * 256 + t.a.toNat = 2 * s.a.toNat ∧ t.c.toNat = (s.a.getLsbD 7).toNat) ∧
    (∃ t, exec .shr s = .next t ∧ t = { s with a := t.a, c := t.c } ∧
      2 * t.a.toNat + t.c.toNat = s.a.toNat ∧ t.c.toNat = (s.a.getLsbD 0).toNat)

/-- R111: with `c` = 0 `SLHC` is `SHL`; with `c` = 1 it shifts by two and `c` becomes `a >= 64`. The grouping and the
carry are the spec's own decisions (92_eei_decisions.md D8, D10). -/
def Obligations.SlhcShiftsByOnePlusCarry : Prop :=
  ∀ s : State, ∃ t, exec .slhc s = .next t ∧ t = { s with a := t.a, c := t.c } ∧
    (s.c = 0#1 → exec .shl s = .next t) ∧
    (s.c = 1#1 → t.a.toNat = s.a.toNat * 4 % 256 ∧ (t.c = 1#1 ↔ 64 ≤ s.a.toNat)) ∧
    (t.c = 1#1 ↔ 255 < s.a.toNat * 2 ^ (1 + s.c.toNat))

/-- R113: with `c` = 0 `a` is shifted right by one, with `c` = 1 it becomes 0; `c` gets the old bit 0 of `a`, or keeps its
value, as `SHRC_CARRY` says. The grouping and the two settings of the carry are the spec's own decisions
(92_eei_decisions.md D9, D10). -/
def Obligations.ShrcShiftsByOnePlus128TimesCarry : Prop :=
  ∀ s : State, ∃ t, exec .shrc s = .next t ∧ t = { s with a := t.a, c := t.c } ∧
    t.a.toNat = (if s.c = 1#1 then 0 else s.a.toNat / 2) ∧
    (s.params.shrcCarry = .asShr → t.c.toNat = s.a.toNat % 2) ∧ (s.params.shrcCarry = .unchanged → t.c = s.c)

/-! ### Results: logic and parity -/

/-- R120 to R125, bit by bit; `c` and everything but `a` is as before. -/
def Obligations.LogicResultsBitByBit : Prop :=
  ∀ s : State,
    (∃ t, exec .and s = .next t ∧ t = { s with a := t.a } ∧
      ∀ k, k < 8 → t.a.getLsbD k = (s.a.getLsbD k && s.b.getLsbD k)) ∧
    (∃ t, exec .or s = .next t ∧ t = { s with a := t.a } ∧
      ∀ k, k < 8 → t.a.getLsbD k = (s.a.getLsbD k || s.b.getLsbD k)) ∧
    (∃ t, exec .xor s = .next t ∧ t = { s with a := t.a } ∧
      ∀ k, k < 8 → t.a.getLsbD k = (s.a.getLsbD k ^^ s.b.getLsbD k)) ∧
    (∃ t, exec .nand s = .next t ∧ t = { s with a := t.a } ∧
      ∀ k, k < 8 → t.a.getLsbD k = !(s.a.getLsbD k && s.b.getLsbD k)) ∧
    (∃ t, exec .nor s = .next t ∧ t = { s with a := t.a } ∧
      ∀ k, k < 8 → t.a.getLsbD k = !(s.a.getLsbD k || s.b.getLsbD k)) ∧
    (∃ t, exec .xnor s = .next t ∧ t = { s with a := t.a } ∧
      ∀ k, k < 8 → t.a.getLsbD k = !(s.a.getLsbD k ^^ s.b.getLsbD k))

/-- R126, R127: the parity of the 1 bits of `a`, alone or with the old `c`, into `c`; `a` is unchanged. -/
def Obligations.ParityResults : Prop :=
  ∀ s : State,
    (∃ t, exec .cksm s = .next t ∧ t = { s with c := t.c } ∧
      t.c.toNat = (List.range 8).countP (fun k => s.a.getLsbD k) % 2) ∧
    (∃ t, exec .cksmc s = .next t ∧ t = { s with c := t.c } ∧
      t.c.toNat = ((List.range 8).countP (fun k => s.a.getLsbD k) + s.c.toNat) % 2)

/-- R127: `CKSM` on a first byte and `CKSMC` on each later one leave in `c` the parity of all their bits. -/
def Obligations.RunningParityOfManyBytes : Prop :=
  ∀ (bytes : List Byte) (first : Byte) (s : State), ∃ t, exec .cksm { s with a := first } = .next t ∧
    (checksumRun bytes t).c.toNat =
      ((first :: bytes).map (fun v => (List.range 8).countP (fun k => v.getLsbD k))).sum % 2

/-! ### Results: counter and branches -/

/-- R140, R141: `q` modulo 256 up or down by one, `c` and all else as before, `z` following; each undoes the other. -/
def Obligations.CounterResults : Prop :=
  ∀ s : State,
    (∃ t, exec .incr s = .next t ∧ t = { s with q := t.q } ∧ t.q.toNat = (s.q.toNat + 1) % 256 ∧
      (t.z = 1#1 ↔ s.q.toNat = 255) ∧ exec .decr t = .next s) ∧
    (∃ t, exec .decr s = .next t ∧ t = { s with q := t.q } ∧ t.q.toNat = (s.q.toNat + 255) % 256 ∧
      (t.z = 1#1 ↔ s.q.toNat = 1) ∧ exec .incr t = .next s)

/-- R142 to R145: the target is `r`; a jump not taken leaves `p` after the instruction; no jump writes a flag; exactly one
of `JMPZ` and `JMPQ` is taken in any state. -/
def Obligations.JumpResults : Prop :=
  ∀ s : State,
    exec .jmp s = .next { s with p := s.h ++ s.l } ∧
    exec .jmpc s = .next { s with p := if s.c.toNat = 1 then s.h ++ s.l else s.p } ∧
    ∃ t u, exec .jmpz s = .next t ∧ t = { s with p := if s.q.toNat = 0 then s.h ++ s.l else s.p } ∧
      exec .jmpq s = .next u ∧ u = { s with p := if s.q.toNat = 0 then s.p else s.h ++ s.l } ∧
      ((t.p = s.r ∧ u.p = s.p) ∨ (t.p = s.p ∧ u.p = s.r))

/-! ### Results: stack and subroutine -/

/-- R161: `PSH` stores `a mod 2^W` in the cell of `0xFF00 + s`, the only one changed, and decrements `s` modulo 256. -/
def Obligations.PshStoresAAndDecrementsS : Prop :=
  ∀ s : State, s.Inv → ∃ t, exec .psh s = .next t ∧ t = { s with s := t.s, mem := t.mem } ∧
    t.s.toNat = (s.s.toNat + 255) % 256 ∧
    ∀ i, i < 2 ^ s.params.addrWidth → (Memory.read t.mem i).toNat =
      if i = (0xFF00 + s.s.toNat) % 2 ^ s.params.addrWidth then s.a.toNat % 2 ^ s.params.writeWidth
      else (Memory.read s.mem i).toNat

/-- R162: `POP` increments `s` modulo 256 and loads `a` from the slot of the new `s`, which keeps its value. -/
def Obligations.PopIncrementsSAndLoadsA : Prop :=
  ∀ s : State, ∃ t, exec .pop s = .next t ∧ t = { s with s := t.s, a := t.a } ∧
    t.s.toNat = (s.s.toNat + 1) % 256 ∧
    t.a = Memory.read s.mem ((0xFF00 + t.s.toNat) % 2 ^ s.params.addrWidth)

/-- `PSH` then `POP` restores `s`, and `a` modulo 2^W (all of it when W = 8), when nothing wrote the slot or moved `s`
between: the spec's own inference from R161, R162 and R43. -/
def Obligations.PshThenPopIsAnInverse : Prop :=
  ∀ s t t' : State, s.Inv → exec .psh s = .next t → t'.s = t.s → t'.params = t.params →
    t'.memRead s.stackAddr = t.memRead s.stackAddr →
      ∃ u, exec .pop t' = .next u ∧ u.s = s.s ∧ u.a.toNat = s.a.toNat % 2 ^ s.params.writeWidth ∧
        (s.params.writeWidth = 8 → u.a = s.a)

/-- R163: `SUBR` stores the high byte of `p` at the slot of `s` and the low byte at the slot of `s - 1`, moves `s` down by
two and `p` to `r`; every other cell and register is as before. Which `p` is pushed is the spec's own decision
(92_eei_decisions.md D12). -/
def Obligations.SubrPushesTheReturnAddressAndJumps : Prop :=
  ∀ s : State, s.Inv → ∃ t, exec .subr s = .next t ∧ t = { s with s := t.s, p := s.r, mem := t.mem } ∧
    t.s.toNat = (s.s.toNat + 254) % 256 ∧
    (t.memRead (0xFF00#16 + s.s.setWidth 16)).toNat = s.p.toNat / 256 % 2 ^ s.params.writeWidth ∧
    (t.memRead (0xFF00#16 + (s.s - 1#8).setWidth 16)).toNat = s.p.toNat % 256 % 2 ^ s.params.writeWidth ∧
    ∀ x, ¬ SameCell s.params x (0xFF00#16 + s.s.setWidth 16) → ¬ SameCell s.params x (0xFF00#16 + (s.s - 1#8).setWidth 16) →
      t.memRead x = s.memRead x

/-- R164: `RET` loads `l` from the slot above `s`, `h` from the one above that, and moves `s` up by two; `p` is not
written. That `p` is left alone is the spec's own decision (92_eei_decisions.md D11). -/
def Obligations.RetPopsTheAddressPairOnly : Prop :=
  ∀ s : State, ∃ t, exec .ret s = .next t ∧ t = { s with s := t.s, h := t.h, l := t.l } ∧
    t.s.toNat = (s.s.toNat + 2) % 256 ∧
    t.l = Memory.read s.mem ((0xFF00 + (s.s.toNat + 1) % 256) % 2 ^ s.params.addrWidth) ∧
    t.h = Memory.read s.mem ((0xFF00 + (s.s.toNat + 2) % 256) % 2 ^ s.params.addrWidth)

/-- R165: after a `SUBR`, whatever the subroutine did so long as `s` is as it found it and the two slots are unwritten,
`RET` gives `r` the return address, each of its bytes as stored modulo 2^W (so the address itself when W = 8), and
`JMP` resumes there, with `s` restored and `a`, `b`, `q`, `c` left alone. That the return address is the one after
the `SUBR` (92_eei_decisions.md D12) and that `RET` leaves `p` alone (D11) are the spec's own decisions. -/
def Obligations.SubrThenRetThenJmpResumesTheCaller : Prop :=
  ∀ s t t' : State, s.Inv → exec .subr s = .next t →
    t'.s = t.s → t'.params = t.params → t'.memRead s.stackAddr = t.memRead s.stackAddr →
    t'.memRead (stackSlot (s.s - 1#8)) = t.memRead (stackSlot (s.s - 1#8)) →
      ∃ u v, exec .ret t' = .next u ∧ u.p = t'.p ∧ u.s = s.s ∧ exec .jmp u = .next v ∧
        u.r.toNat = s.p.toNat / 256 % 2 ^ s.params.writeWidth * 256 + s.p.toNat % 256 % 2 ^ s.params.writeWidth ∧
        (s.params.writeWidth = 8 → u.r = s.p) ∧
        v = { t' with s := s.s, h := v.h, l := v.l, p := u.r }

/-- R73, each idiom run from its bytes at `p` in two steps. `CALL target` jumps to the target and pushes the address of
the byte after `SUBR`, stored modulo 2^W; `GOTO target` and the three `BRANCHcc target` set `h:l` to the target and
jump there, a branch not taken going on after its four bytes; `RETURN` pops `h:l` and jumps to it. The idioms
(92_eei_decisions.md D18), which address is pushed (D12) and that `RET` itself leaves `p` alone (D11) are the spec's
own decisions. -/
def Obligations.CallIdiomJumpsAndPushesTheReturnAddress : Prop :=
  ∀ (s : State) (target : Word), s.status = .running →
    (s.Inv → s.bytesAt s.p 4 = encodeSeq (idiomCall target) →
      ∃ t u, step s = .next t ∧ step t = .next u ∧ u.p = target ∧ u.r = target ∧ u.s = s.s - 2#8 ∧
        (u.memRead s.stackAddr).toNat = (s.p + 4#16).toNat / 256 % 2 ^ s.params.writeWidth ∧
        (u.memRead (stackSlot (s.s - 1#8))).toNat = (s.p + 4#16).toNat % 256 % 2 ^ s.params.writeWidth) ∧
    (∀ i taken, (i = .jmp ∧ taken = true) ∨ (i = .jmpc ∧ (taken = true ↔ s.c.toNat = 1)) ∨
        (i = .jmpz ∧ (taken = true ↔ s.q.toNat = 0)) ∨ (i = .jmpq ∧ (taken = true ↔ s.q.toNat ≠ 0)) →
      s.bytesAt s.p 4 = encodeSeq (idiomGoto i target) →
        ∃ t u, step s = .next t ∧ step t = .next u ∧ u.r = target ∧
          u = { s with h := u.h, l := u.l, p := if taken then target else s.p + 4#16 }) ∧
    (s.bytesAt s.p 2 = encodeSeq idiomReturn →
      ∃ t u, step s = .next t ∧ step t = .next u ∧
        u.h = s.memRead (stackSlot (s.s + 2#8)) ∧ u.l = s.memRead (stackSlot (s.s + 1#8)) ∧
        u = { s with s := s.s + 2#8, h := u.h, l := u.l, p := u.r })
end

