-- ==== Sys2Proof/Laws/State.lean ====
section
/-! SUPPORT. What each update of Machine/Ops.lean leaves in each field: one lemma per field per update, true by rfl. -/
namespace Sys2Proof.Machine

@[simp] theorem State.setA_a (s : State) (v : Byte) : (s.setA v).a = v := rfl
@[simp] theorem State.setA_b (s : State) (v : Byte) : (s.setA v).b = s.b := rfl
@[simp] theorem State.setA_q (s : State) (v : Byte) : (s.setA v).q = s.q := rfl
@[simp] theorem State.setA_h (s : State) (v : Byte) : (s.setA v).h = s.h := rfl
@[simp] theorem State.setA_l (s : State) (v : Byte) : (s.setA v).l = s.l := rfl
@[simp] theorem State.setA_s (s : State) (v : Byte) : (s.setA v).s = s.s := rfl
@[simp] theorem State.setA_p (s : State) (v : Byte) : (s.setA v).p = s.p := rfl
@[simp] theorem State.setA_c (s : State) (v : Byte) : (s.setA v).c = s.c := rfl
@[simp] theorem State.setA_status (s : State) (v : Byte) : (s.setA v).status = s.status := rfl
@[simp] theorem State.setA_mem (s : State) (v : Byte) : (s.setA v).mem = s.mem := rfl
@[simp] theorem State.setA_params (s : State) (v : Byte) : (s.setA v).params = s.params := rfl

@[simp] theorem State.setB_a (s : State) (v : Byte) : (s.setB v).a = s.a := rfl
@[simp] theorem State.setB_b (s : State) (v : Byte) : (s.setB v).b = v := rfl
@[simp] theorem State.setB_q (s : State) (v : Byte) : (s.setB v).q = s.q := rfl
@[simp] theorem State.setB_h (s : State) (v : Byte) : (s.setB v).h = s.h := rfl
@[simp] theorem State.setB_l (s : State) (v : Byte) : (s.setB v).l = s.l := rfl
@[simp] theorem State.setB_s (s : State) (v : Byte) : (s.setB v).s = s.s := rfl
@[simp] theorem State.setB_p (s : State) (v : Byte) : (s.setB v).p = s.p := rfl
@[simp] theorem State.setB_c (s : State) (v : Byte) : (s.setB v).c = s.c := rfl
@[simp] theorem State.setB_status (s : State) (v : Byte) : (s.setB v).status = s.status := rfl
@[simp] theorem State.setB_mem (s : State) (v : Byte) : (s.setB v).mem = s.mem := rfl
@[simp] theorem State.setB_params (s : State) (v : Byte) : (s.setB v).params = s.params := rfl

@[simp] theorem State.setQ_a (s : State) (v : Byte) : (s.setQ v).a = s.a := rfl
@[simp] theorem State.setQ_b (s : State) (v : Byte) : (s.setQ v).b = s.b := rfl
@[simp] theorem State.setQ_q (s : State) (v : Byte) : (s.setQ v).q = v := rfl
@[simp] theorem State.setQ_h (s : State) (v : Byte) : (s.setQ v).h = s.h := rfl
@[simp] theorem State.setQ_l (s : State) (v : Byte) : (s.setQ v).l = s.l := rfl
@[simp] theorem State.setQ_s (s : State) (v : Byte) : (s.setQ v).s = s.s := rfl
@[simp] theorem State.setQ_p (s : State) (v : Byte) : (s.setQ v).p = s.p := rfl
@[simp] theorem State.setQ_c (s : State) (v : Byte) : (s.setQ v).c = s.c := rfl
@[simp] theorem State.setQ_status (s : State) (v : Byte) : (s.setQ v).status = s.status := rfl
@[simp] theorem State.setQ_mem (s : State) (v : Byte) : (s.setQ v).mem = s.mem := rfl
@[simp] theorem State.setQ_params (s : State) (v : Byte) : (s.setQ v).params = s.params := rfl

@[simp] theorem State.setH_a (s : State) (v : Byte) : (s.setH v).a = s.a := rfl
@[simp] theorem State.setH_b (s : State) (v : Byte) : (s.setH v).b = s.b := rfl
@[simp] theorem State.setH_q (s : State) (v : Byte) : (s.setH v).q = s.q := rfl
@[simp] theorem State.setH_h (s : State) (v : Byte) : (s.setH v).h = v := rfl
@[simp] theorem State.setH_l (s : State) (v : Byte) : (s.setH v).l = s.l := rfl
@[simp] theorem State.setH_s (s : State) (v : Byte) : (s.setH v).s = s.s := rfl
@[simp] theorem State.setH_p (s : State) (v : Byte) : (s.setH v).p = s.p := rfl
@[simp] theorem State.setH_c (s : State) (v : Byte) : (s.setH v).c = s.c := rfl
@[simp] theorem State.setH_status (s : State) (v : Byte) : (s.setH v).status = s.status := rfl
@[simp] theorem State.setH_mem (s : State) (v : Byte) : (s.setH v).mem = s.mem := rfl
@[simp] theorem State.setH_params (s : State) (v : Byte) : (s.setH v).params = s.params := rfl

@[simp] theorem State.setL_a (s : State) (v : Byte) : (s.setL v).a = s.a := rfl
@[simp] theorem State.setL_b (s : State) (v : Byte) : (s.setL v).b = s.b := rfl
@[simp] theorem State.setL_q (s : State) (v : Byte) : (s.setL v).q = s.q := rfl
@[simp] theorem State.setL_h (s : State) (v : Byte) : (s.setL v).h = s.h := rfl
@[simp] theorem State.setL_l (s : State) (v : Byte) : (s.setL v).l = v := rfl
@[simp] theorem State.setL_s (s : State) (v : Byte) : (s.setL v).s = s.s := rfl
@[simp] theorem State.setL_p (s : State) (v : Byte) : (s.setL v).p = s.p := rfl
@[simp] theorem State.setL_c (s : State) (v : Byte) : (s.setL v).c = s.c := rfl
@[simp] theorem State.setL_status (s : State) (v : Byte) : (s.setL v).status = s.status := rfl
@[simp] theorem State.setL_mem (s : State) (v : Byte) : (s.setL v).mem = s.mem := rfl
@[simp] theorem State.setL_params (s : State) (v : Byte) : (s.setL v).params = s.params := rfl

@[simp] theorem State.setS_a (s : State) (v : Byte) : (s.setS v).a = s.a := rfl
@[simp] theorem State.setS_b (s : State) (v : Byte) : (s.setS v).b = s.b := rfl
@[simp] theorem State.setS_q (s : State) (v : Byte) : (s.setS v).q = s.q := rfl
@[simp] theorem State.setS_h (s : State) (v : Byte) : (s.setS v).h = s.h := rfl
@[simp] theorem State.setS_l (s : State) (v : Byte) : (s.setS v).l = s.l := rfl
@[simp] theorem State.setS_s (s : State) (v : Byte) : (s.setS v).s = v := rfl
@[simp] theorem State.setS_p (s : State) (v : Byte) : (s.setS v).p = s.p := rfl
@[simp] theorem State.setS_c (s : State) (v : Byte) : (s.setS v).c = s.c := rfl
@[simp] theorem State.setS_status (s : State) (v : Byte) : (s.setS v).status = s.status := rfl
@[simp] theorem State.setS_mem (s : State) (v : Byte) : (s.setS v).mem = s.mem := rfl
@[simp] theorem State.setS_params (s : State) (v : Byte) : (s.setS v).params = s.params := rfl

@[simp] theorem State.setP_a (s : State) (v : Word) : (s.setP v).a = s.a := rfl
@[simp] theorem State.setP_b (s : State) (v : Word) : (s.setP v).b = s.b := rfl
@[simp] theorem State.setP_q (s : State) (v : Word) : (s.setP v).q = s.q := rfl
@[simp] theorem State.setP_h (s : State) (v : Word) : (s.setP v).h = s.h := rfl
@[simp] theorem State.setP_l (s : State) (v : Word) : (s.setP v).l = s.l := rfl
@[simp] theorem State.setP_s (s : State) (v : Word) : (s.setP v).s = s.s := rfl
@[simp] theorem State.setP_p (s : State) (v : Word) : (s.setP v).p = v := rfl
@[simp] theorem State.setP_c (s : State) (v : Word) : (s.setP v).c = s.c := rfl
@[simp] theorem State.setP_status (s : State) (v : Word) : (s.setP v).status = s.status := rfl
@[simp] theorem State.setP_mem (s : State) (v : Word) : (s.setP v).mem = s.mem := rfl
@[simp] theorem State.setP_params (s : State) (v : Word) : (s.setP v).params = s.params := rfl

@[simp] theorem State.setC_a (s : State) (v : Bit) : (s.setC v).a = s.a := rfl
@[simp] theorem State.setC_b (s : State) (v : Bit) : (s.setC v).b = s.b := rfl
@[simp] theorem State.setC_q (s : State) (v : Bit) : (s.setC v).q = s.q := rfl
@[simp] theorem State.setC_h (s : State) (v : Bit) : (s.setC v).h = s.h := rfl
@[simp] theorem State.setC_l (s : State) (v : Bit) : (s.setC v).l = s.l := rfl
@[simp] theorem State.setC_s (s : State) (v : Bit) : (s.setC v).s = s.s := rfl
@[simp] theorem State.setC_p (s : State) (v : Bit) : (s.setC v).p = s.p := rfl
@[simp] theorem State.setC_c (s : State) (v : Bit) : (s.setC v).c = v := rfl
@[simp] theorem State.setC_status (s : State) (v : Bit) : (s.setC v).status = s.status := rfl
@[simp] theorem State.setC_mem (s : State) (v : Bit) : (s.setC v).mem = s.mem := rfl
@[simp] theorem State.setC_params (s : State) (v : Bit) : (s.setC v).params = s.params := rfl

@[simp] theorem State.setStatus_a (s : State) (v : RunStatus) : (s.setStatus v).a = s.a := rfl
@[simp] theorem State.setStatus_b (s : State) (v : RunStatus) : (s.setStatus v).b = s.b := rfl
@[simp] theorem State.setStatus_q (s : State) (v : RunStatus) : (s.setStatus v).q = s.q := rfl
@[simp] theorem State.setStatus_h (s : State) (v : RunStatus) : (s.setStatus v).h = s.h := rfl
@[simp] theorem State.setStatus_l (s : State) (v : RunStatus) : (s.setStatus v).l = s.l := rfl
@[simp] theorem State.setStatus_s (s : State) (v : RunStatus) : (s.setStatus v).s = s.s := rfl
@[simp] theorem State.setStatus_p (s : State) (v : RunStatus) : (s.setStatus v).p = s.p := rfl
@[simp] theorem State.setStatus_c (s : State) (v : RunStatus) : (s.setStatus v).c = s.c := rfl
@[simp] theorem State.setStatus_status (s : State) (v : RunStatus) : (s.setStatus v).status = v := rfl
@[simp] theorem State.setStatus_mem (s : State) (v : RunStatus) : (s.setStatus v).mem = s.mem := rfl
@[simp] theorem State.setStatus_params (s : State) (v : RunStatus) : (s.setStatus v).params = s.params := rfl

@[simp] theorem State.setMem_a (s : State) (v : Memory) : (s.setMem v).a = s.a := rfl
@[simp] theorem State.setMem_b (s : State) (v : Memory) : (s.setMem v).b = s.b := rfl
@[simp] theorem State.setMem_q (s : State) (v : Memory) : (s.setMem v).q = s.q := rfl
@[simp] theorem State.setMem_h (s : State) (v : Memory) : (s.setMem v).h = s.h := rfl
@[simp] theorem State.setMem_l (s : State) (v : Memory) : (s.setMem v).l = s.l := rfl
@[simp] theorem State.setMem_s (s : State) (v : Memory) : (s.setMem v).s = s.s := rfl
@[simp] theorem State.setMem_p (s : State) (v : Memory) : (s.setMem v).p = s.p := rfl
@[simp] theorem State.setMem_c (s : State) (v : Memory) : (s.setMem v).c = s.c := rfl
@[simp] theorem State.setMem_status (s : State) (v : Memory) : (s.setMem v).status = s.status := rfl
@[simp] theorem State.setMem_mem (s : State) (v : Memory) : (s.setMem v).mem = v := rfl
@[simp] theorem State.setMem_params (s : State) (v : Memory) : (s.setMem v).params = s.params := rfl

end Sys2Proof.Machine
end

