-- ==== Sys2Proof/Laws/Conditional.lean ====
section
/-! SUPPORT. The four meanings that branch, as one record update each: no case split is then needed to see which fields
they leave alone. -/
namespace Sys2Proof.Machine

theorem exec_shrc_eq (s : State) :
    exec .shrc s = .next { s with
      a := low8 (s.a.toNat >>> (1 + s.c.toNat * 128))
      c := match s.params.shrcCarry with
        | .asShr => bitOf s.a 0
        | .unchanged => s.c } := by
  obtain ⟨_, _, _, _, _, _, _, _, _, _, _, _, k⟩ := s
  cases k <;> rfl

theorem exec_jmpc_eq (s : State) : exec .jmpc s = .next { s with p := if s.c = 1#1 then s.r else s.p } := by
  simp only [exec, execJmpc]
  split <;> rfl

theorem exec_jmpz_eq (s : State) : exec .jmpz s = .next { s with p := if s.z = 1#1 then s.r else s.p } := by
  simp only [exec, execJmpz]
  split <;> rfl

theorem exec_jmpq_eq (s : State) : exec .jmpq s = .next { s with p := if s.z = 0#1 then s.r else s.p } := by
  simp only [exec, execJmpq]
  split <;> rfl

end Sys2Proof.Machine
end

