-- ==== Sys2Proof/Laws/Memory.lean ====
section
/-! SUPPORT. The laws of the cells: every memory operation keeps the canonical form, and a read after a write. -/
namespace Sys2Proof.Machine

theorem Memory.wfFrom_cons {hi lo k : Nat} {v : Byte} {m : Memory} :
    Memory.wfFrom hi lo ((k, v) :: m) = true ↔
      lo ≤ k ∧ k < hi ∧ v ≠ Memory.unlisted ∧ Memory.wfFrom hi (k + 1) m = true := by
  simp [Memory.wfFrom, and_assoc]

theorem Memory.wfFrom_of_le {hi lo lo' : Nat} {m : Memory} (hle : lo' ≤ lo) (h : Memory.wfFrom hi lo m = true) :
    Memory.wfFrom hi lo' m = true := by
  cases m with
  | nil => rfl
  | cons e m => rw [Memory.wfFrom_cons] at h ⊢; exact ⟨hle.trans h.1, h.2⟩

/-- Below its first index a canonical memory lists nothing. -/
theorem Memory.read_below {hi lo i : Nat} {m : Memory} (h : Memory.wfFrom hi lo m = true) (hi' : i < lo) :
    Memory.read m i = Memory.unlisted := by
  induction m generalizing lo with
  | nil => rfl
  | cons e m ih =>
    obtain ⟨k, v⟩ := e
    obtain ⟨hk, -, -, hm⟩ := Memory.wfFrom_cons.mp h
    simp only [Memory.read]
    rw [if_neg (by omega)]
    exact ih hm (by omega)

theorem Memory.wfFrom_write {hi lo i : Nat} {v : Byte} {m : Memory} (h : Memory.wfFrom hi lo m = true)
    (hlo : lo ≤ i) (hhi : i < hi) : Memory.wfFrom hi lo (Memory.write m i v) = true := by
  induction m generalizing lo with
  | nil =>
    simp only [Memory.write]
    split
    · rfl
    · exact Memory.wfFrom_cons.mpr ⟨hlo, hhi, ‹_›, rfl⟩
  | cons e m ih =>
    obtain ⟨k, w⟩ := e
    obtain ⟨hk, hkh, hw, hm⟩ := Memory.wfFrom_cons.mp h
    simp only [Memory.write]
    split
    · split
      · exact h
      · exact Memory.wfFrom_cons.mpr ⟨hlo, hhi, ‹_›, Memory.wfFrom_cons.mpr ⟨by omega, hkh, hw, hm⟩⟩
    · split
      · subst i
        split
        · exact Memory.wfFrom_of_le (by omega) hm
        · exact Memory.wfFrom_cons.mpr ⟨hlo, hhi, ‹_›, hm⟩
      · exact Memory.wfFrom_cons.mpr ⟨hk, hkh, hw, ih hm (by omega)⟩

/-- Every write of the cells keeps the canonical form. -/
theorem Memory.wf_write {n i : Nat} {v : Byte} {m : Memory} (h : Memory.wf n m = true) (hi : i < n) :
    Memory.wf n (Memory.write m i v) = true :=
  Memory.wfFrom_write h (Nat.zero_le i) hi

theorem Memory.wf_nil (n : Nat) : Memory.wf n [] = true := rfl

theorem Memory.read_write_from {hi lo i j : Nat} {v : Byte} {m : Memory} (h : Memory.wfFrom hi lo m = true) :
    Memory.read (Memory.write m i v) j = if j = i then v else Memory.read m j := by
  induction m generalizing lo with
  | nil =>
    simp only [Memory.write]
    split
    · simp_all [Memory.read]
    · simp [Memory.read]
  | cons e m ih =>
    obtain ⟨k, w⟩ := e
    obtain ⟨-, -, -, hm⟩ := Memory.wfFrom_cons.mp h
    simp only [Memory.write]
    split
    · split
      · by_cases hj : j = i
        · subst hj
          rw [if_pos rfl, Memory.read, if_neg (by omega), Memory.read_below hm (by omega)]
          exact (‹v = _›).symm
        · rw [if_neg hj]
      · rw [Memory.read]
    · split
      · subst i
        split
        · by_cases hj : j = k
          · subst hj
            rw [if_pos rfl, Memory.read_below hm (by omega)]
            exact (‹v = _›).symm
          · simp [Memory.read, hj]
        · by_cases hj : j = k <;> simp [Memory.read, hj]
      · by_cases hj : j = k
        · subst hj
          simp [Memory.read, show ¬ j = i by omega]
        · simp [Memory.read, hj, ih hm]

/-- Read after write. -/
theorem Memory.read_write {n i j : Nat} {v : Byte} {m : Memory} (h : Memory.wf n m = true) :
    Memory.read (Memory.write m i v) j = if j = i then v else Memory.read m j :=
  Memory.read_write_from h

theorem cellOf_lt (P : Params) (addr : Word) : cellOf P addr < P.cells :=
  Nat.mod_lt _ (Nat.two_pow_pos _)

theorem busStore_wf {P : Params} {m : Memory} (h : Memory.wf P.cells m = true) (addr : Word) (v : Byte) :
    Memory.wf P.cells (busStore P m addr v) = true :=
  Memory.wf_write h (cellOf_lt P addr)

theorem loadBytes_wf (s : State) (addr : Word) (vs : List Byte) (h : Memory.wf s.params.cells s.mem = true) :
    Memory.wf s.params.cells (s.loadBytes addr vs).mem = true := by
  induction vs generalizing addr with
  | nil => exact h
  | cons v vs ih => exact Memory.wf_write (ih (addr + 1#16)) (cellOf_lt s.params addr)

theorem loadImage_wf {n i : Nat} {m : Memory} {es : List ImageEntry} (h : Memory.wf n m = true)
    (hi : i + es.length ≤ n) : Memory.wf n (loadImage m i es) = true := by
  induction es generalizing m i with
  | nil => exact h
  | cons e es ih =>
    simp only [List.length_cons] at hi
    cases e with
    | none => exact ih h (by omega)
    | some v => exact ih (Memory.wf_write h (by omega)) (by omega)

theorem State.reset_mem_wf : Memory.wf State.reset.params.cells State.reset.mem = true := rfl

end Sys2Proof.Machine
end

