-- ==== Sys2Proof/Laws/Ops.lean ====
section
/-! SUPPORT. One spec lemma per shared operation: everything it does. -/
namespace Sys2Proof.Machine

/-- A write changes the one cell its address reaches, and no other field (20_memory.md R43). -/
theorem memWrite_memRead {s : State} (h : Memory.wf s.params.cells s.mem = true) (x y : Word) (v : Byte) :
    (s.memWrite x v).memRead y =
      if cellOf s.params y = cellOf s.params x then maskWrite s.params v else s.memRead y :=
  Memory.read_write h

theorem memWrite_eq (s : State) (x : Word) (v : Byte) :
    s.memWrite x v = { s with mem := busStore s.params s.mem x v } := rfl

theorem memWrite_wf {s : State} (h : Memory.wf s.params.cells s.mem = true) (x : Word) (v : Byte) :
    Memory.wf (s.memWrite x v).params.cells (s.memWrite x v).mem = true :=
  busStore_wf h x v

theorem push_eq (s : State) (v : Byte) :
    s.push v = { s with mem := busStore s.params s.mem s.stackAddr v, s := s.s - 1#8 } := rfl

theorem push_wf {s : State} (h : Memory.wf s.params.cells s.mem = true) (v : Byte) :
    Memory.wf (s.push v).params.cells (s.push v).mem = true :=
  busStore_wf h s.stackAddr v

theorem push_memRead {s : State} (h : Memory.wf s.params.cells s.mem = true) (v : Byte) (y : Word) :
    (s.push v).memRead y =
      if cellOf s.params y = cellOf s.params s.stackAddr then maskWrite s.params v else s.memRead y :=
  Memory.read_write h

theorem stackSlot_toNat (x : Byte) : (stackSlot x).toNat = 0xFF00 + x.toNat := by
  have := x.isLt
  rw [stackSlot, BitVec.toNat_add, BitVec.toNat_setWidth, Nat.mod_eq_of_lt (by omega : x.toNat < 2 ^ 16)]
  exact Nat.mod_eq_of_lt (by simp only [BitVec.toNat_ofNat]; omega)

theorem pop_eq (s : State) :
    s.pop = (s.memRead (stackSlot (s.s + 1#8)), { s with s := s.s + 1#8 }) := rfl

theorem fetch8_eq (s : State) : s.fetch8 = (s.memRead s.p, { s with p := s.p + 1#16 }) := rfl

theorem halt_eq (s : State) : s.halt = { s with status := .halted } := rfl

/-- Reads depend on the cell only (20_memory.md R41). -/
theorem memRead_congr (s : State) {x y : Word} (h : cellOf s.params x = cellOf s.params y) :
    s.memRead x = s.memRead y := by
  simp only [State.memRead, h]

/-- Where the bus stores all 8 bits, it stores the written value (20_memory.md R43). -/
theorem maskWrite_eight {P : Params} (h : P.writeWidth = 8) (v : Byte) : maskWrite P v = v := by
  simp [maskWrite, h, Nat.mod_eq_of_lt v.isLt]

theorem maskWrite_toNat {P : Params} (h : P.writeWidth ≤ 8) (v : Byte) :
    (maskWrite P v).toNat = v.toNat % 2 ^ P.writeWidth := by
  have h8 : 2 ^ P.writeWidth ≤ 2 ^ 8 := Nat.pow_le_pow_right (by decide) h
  have := Nat.mod_lt v.toNat (Nat.two_pow_pos P.writeWidth)
  simp only [maskWrite, BitVec.toNat_ofNat]
  exact Nat.mod_eq_of_lt (by omega)

end Sys2Proof.Machine
end

