-- ==== Sys2Proof/Laws/Fetch.lean ====
section
/-! SUPPORT. Fetching, by format: what instruction comes, and where `p` then is; and one step from there. -/
namespace Sys2Proof.Machine

theorem fetchInstr_f1 {s : State} (h : formatOf (s.memRead s.p) = .f1) :
    fetchInstr s = (assemble (s.memRead s.p) 0#8 0#8, { s with p := s.p + 1#16 }) := by
  simp only [fetchInstr, fetch8_eq, h]

theorem fetchInstr_f2 {s : State} (h : formatOf (s.memRead s.p) = .f2) :
    fetchInstr s = (assemble (s.memRead s.p) (s.memRead (s.p + 1#16)) 0#8, { s with p := s.p + 2#16 }) := by
  simp only [fetchInstr, fetch8_eq, h]
  rw [show s.p + 2#16 = s.p + 1#16 + 1#16 by rw [BitVec.add_assoc]; rfl]
  rfl

theorem fetchInstr_f3 {s : State} (h : formatOf (s.memRead s.p) = .f3) :
    fetchInstr s =
      (assemble (s.memRead s.p) (s.memRead (s.p + 1#16)) (s.memRead (s.p + 2#16)), { s with p := s.p + 3#16 }) := by
  simp only [fetchInstr, fetch8_eq, h]
  rw [show s.p + 2#16 = s.p + 1#16 + 1#16 by rw [BitVec.add_assoc]; rfl,
    show s.p + 3#16 = s.p + 1#16 + 1#16 + 1#16 by rw [BitVec.add_assoc, BitVec.add_assoc]; rfl]
  rfl

theorem step_of_running {s : State} (h : s.status = .running) : step s = exec (fetchInstr s).1 (fetchInstr s).2 := by
  simp only [step, h]

/-- No fetch changes anything but `p`. -/
theorem fetchInstr_eq_setP (s : State) : ∃ p, (fetchInstr s).2 = { s with p := p } := by
  rcases h : formatOf (s.memRead s.p) with _ | _ | _
  · exact ⟨_, by rw [fetchInstr_f1 h]⟩
  · exact ⟨_, by rw [fetchInstr_f2 h]⟩
  · exact ⟨_, by rw [fetchInstr_f3 h]⟩

end Sys2Proof.Machine
end

