-- ==== Sys2Proof/Laws/PerInstr.lean ====
section
/-! SUPPORT. Facts about every instruction as syntax, one lemma per constructor (LAWS.json). -/

/-- The bytes of an instruction are its opcode byte and no, one or two immediates (30_encoding.md R60): its size is
what the format of its first byte says. -/
def Sys2Proof.Laws.EncodeSize.Statement (i : Sys2Proof.Instr) : Prop :=
  Sys2Proof.WellFormed i →
    ∃ op rest, Sys2Proof.encode i = op :: rest ∧
      i.size = (match Sys2Proof.formatOf op with
        | .f1 => 1
        | .f2 => 2
        | .f3 => 3)

theorem Sys2Proof.Laws.EncodeSize.hlt : Sys2Proof.Laws.EncodeSize.Statement .hlt := fun _ => ⟨_, _, rfl, rfl⟩
theorem Sys2Proof.Laws.EncodeSize.nop : Sys2Proof.Laws.EncodeSize.Statement .nop := fun _ => ⟨_, _, rfl, rfl⟩
theorem Sys2Proof.Laws.EncodeSize.adr (hi8 lo8 : Sys2Proof.Byte) : Sys2Proof.Laws.EncodeSize.Statement (.adr hi8 lo8) := fun _ => ⟨_, _, rfl, rfl⟩
theorem Sys2Proof.Laws.EncodeSize.lda : Sys2Proof.Laws.EncodeSize.Statement .lda := fun _ => ⟨_, _, rfl, rfl⟩
theorem Sys2Proof.Laws.EncodeSize.sta : Sys2Proof.Laws.EncodeSize.Statement .sta := fun _ => ⟨_, _, rfl, rfl⟩
theorem Sys2Proof.Laws.EncodeSize.ldb : Sys2Proof.Laws.EncodeSize.Statement .ldb := fun _ => ⟨_, _, rfl, rfl⟩
theorem Sys2Proof.Laws.EncodeSize.swp : Sys2Proof.Laws.EncodeSize.Statement .swp := fun _ => ⟨_, _, rfl, rfl⟩
theorem Sys2Proof.Laws.EncodeSize.ldh : Sys2Proof.Laws.EncodeSize.Statement .ldh := fun _ => ⟨_, _, rfl, rfl⟩
theorem Sys2Proof.Laws.EncodeSize.ldl : Sys2Proof.Laws.EncodeSize.Statement .ldl := fun _ => ⟨_, _, rfl, rfl⟩
theorem Sys2Proof.Laws.EncodeSize.sth : Sys2Proof.Laws.EncodeSize.Statement .sth := fun _ => ⟨_, _, rfl, rfl⟩
theorem Sys2Proof.Laws.EncodeSize.stl : Sys2Proof.Laws.EncodeSize.Statement .stl := fun _ => ⟨_, _, rfl, rfl⟩
theorem Sys2Proof.Laws.EncodeSize.ldq : Sys2Proof.Laws.EncodeSize.Statement .ldq := fun _ => ⟨_, _, rfl, rfl⟩
theorem Sys2Proof.Laws.EncodeSize.stq : Sys2Proof.Laws.EncodeSize.Statement .stq := fun _ => ⟨_, _, rfl, rfl⟩
theorem Sys2Proof.Laws.EncodeSize.cla (imm8 : Sys2Proof.Byte) : Sys2Proof.Laws.EncodeSize.Statement (.cla imm8) := fun _ => ⟨_, _, rfl, rfl⟩
theorem Sys2Proof.Laws.EncodeSize.clb (imm8 : Sys2Proof.Byte) : Sys2Proof.Laws.EncodeSize.Statement (.clb imm8) := fun _ => ⟨_, _, rfl, rfl⟩
theorem Sys2Proof.Laws.EncodeSize.clq (imm8 : Sys2Proof.Byte) : Sys2Proof.Laws.EncodeSize.Statement (.clq imm8) := fun _ => ⟨_, _, rfl, rfl⟩
theorem Sys2Proof.Laws.EncodeSize.add : Sys2Proof.Laws.EncodeSize.Statement .add := fun _ => ⟨_, _, rfl, rfl⟩
theorem Sys2Proof.Laws.EncodeSize.addc : Sys2Proof.Laws.EncodeSize.Statement .addc := fun _ => ⟨_, _, rfl, rfl⟩
theorem Sys2Proof.Laws.EncodeSize.sub : Sys2Proof.Laws.EncodeSize.Statement .sub := fun _ => ⟨_, _, rfl, rfl⟩
theorem Sys2Proof.Laws.EncodeSize.subc : Sys2Proof.Laws.EncodeSize.Statement .subc := fun _ => ⟨_, _, rfl, rfl⟩
theorem Sys2Proof.Laws.EncodeSize.shl : Sys2Proof.Laws.EncodeSize.Statement .shl := fun _ => ⟨_, _, rfl, rfl⟩
theorem Sys2Proof.Laws.EncodeSize.slhc : Sys2Proof.Laws.EncodeSize.Statement .slhc := fun _ => ⟨_, _, rfl, rfl⟩
theorem Sys2Proof.Laws.EncodeSize.shr : Sys2Proof.Laws.EncodeSize.Statement .shr := fun _ => ⟨_, _, rfl, rfl⟩
theorem Sys2Proof.Laws.EncodeSize.shrc : Sys2Proof.Laws.EncodeSize.Statement .shrc := fun _ => ⟨_, _, rfl, rfl⟩
theorem Sys2Proof.Laws.EncodeSize.and : Sys2Proof.Laws.EncodeSize.Statement .and := fun _ => ⟨_, _, rfl, rfl⟩
theorem Sys2Proof.Laws.EncodeSize.or : Sys2Proof.Laws.EncodeSize.Statement .or := fun _ => ⟨_, _, rfl, rfl⟩
theorem Sys2Proof.Laws.EncodeSize.xor : Sys2Proof.Laws.EncodeSize.Statement .xor := fun _ => ⟨_, _, rfl, rfl⟩
theorem Sys2Proof.Laws.EncodeSize.nand : Sys2Proof.Laws.EncodeSize.Statement .nand := fun _ => ⟨_, _, rfl, rfl⟩
theorem Sys2Proof.Laws.EncodeSize.nor : Sys2Proof.Laws.EncodeSize.Statement .nor := fun _ => ⟨_, _, rfl, rfl⟩
theorem Sys2Proof.Laws.EncodeSize.xnor : Sys2Proof.Laws.EncodeSize.Statement .xnor := fun _ => ⟨_, _, rfl, rfl⟩
theorem Sys2Proof.Laws.EncodeSize.cksm : Sys2Proof.Laws.EncodeSize.Statement .cksm := fun _ => ⟨_, _, rfl, rfl⟩
theorem Sys2Proof.Laws.EncodeSize.cksmc : Sys2Proof.Laws.EncodeSize.Statement .cksmc := fun _ => ⟨_, _, rfl, rfl⟩
theorem Sys2Proof.Laws.EncodeSize.incr : Sys2Proof.Laws.EncodeSize.Statement .incr := fun _ => ⟨_, _, rfl, rfl⟩
theorem Sys2Proof.Laws.EncodeSize.decr : Sys2Proof.Laws.EncodeSize.Statement .decr := fun _ => ⟨_, _, rfl, rfl⟩
theorem Sys2Proof.Laws.EncodeSize.jmp : Sys2Proof.Laws.EncodeSize.Statement .jmp := fun _ => ⟨_, _, rfl, rfl⟩
theorem Sys2Proof.Laws.EncodeSize.jmpc : Sys2Proof.Laws.EncodeSize.Statement .jmpc := fun _ => ⟨_, _, rfl, rfl⟩
theorem Sys2Proof.Laws.EncodeSize.jmpz : Sys2Proof.Laws.EncodeSize.Statement .jmpz := fun _ => ⟨_, _, rfl, rfl⟩
theorem Sys2Proof.Laws.EncodeSize.jmpq : Sys2Proof.Laws.EncodeSize.Statement .jmpq := fun _ => ⟨_, _, rfl, rfl⟩
theorem Sys2Proof.Laws.EncodeSize.psh : Sys2Proof.Laws.EncodeSize.Statement .psh := fun _ => ⟨_, _, rfl, rfl⟩
theorem Sys2Proof.Laws.EncodeSize.pop : Sys2Proof.Laws.EncodeSize.Statement .pop := fun _ => ⟨_, _, rfl, rfl⟩
theorem Sys2Proof.Laws.EncodeSize.subr : Sys2Proof.Laws.EncodeSize.Statement .subr := fun _ => ⟨_, _, rfl, rfl⟩
theorem Sys2Proof.Laws.EncodeSize.ret : Sys2Proof.Laws.EncodeSize.Statement .ret := fun _ => ⟨_, _, rfl, rfl⟩

/-- An opcode byte outside the four with immediates has format F1. -/
theorem Sys2Proof.Laws.EncodeSize.format_of_unassigned {lo hi : Nat} {op : Sys2Proof.Byte}
    (hlo : 16 ≤ lo) (h : Sys2Proof.opcodeIn lo hi op = true) : Sys2Proof.formatOf op = .f1 := by
  have h1 : lo ≤ op.toNat := by simp [Sys2Proof.opcodeIn] at h; exact h.1
  have ne : ∀ k : Sys2Proof.Byte, k.toNat < 16 → op ≠ k := fun k hk e => by subst e; omega
  rw [Sys2Proof.formatOf, if_neg (ne 0x02#8 (by decide)),
    if_neg (by rintro (h | h | h) <;> exact ne _ (by decide) h)]

theorem Sys2Proof.Laws.EncodeSize.unimpl16to19 (op : Sys2Proof.Byte) : Sys2Proof.Laws.EncodeSize.Statement (.unimpl16to19 op) :=
  fun h => ⟨op, [], rfl, by rw [Sys2Proof.Laws.EncodeSize.format_of_unassigned (by decide) h]; rfl⟩
theorem Sys2Proof.Laws.EncodeSize.unimpl46to47 (op : Sys2Proof.Byte) : Sys2Proof.Laws.EncodeSize.Statement (.unimpl46to47 op) :=
  fun h => ⟨op, [], rfl, by rw [Sys2Proof.Laws.EncodeSize.format_of_unassigned (by decide) h]; rfl⟩
theorem Sys2Proof.Laws.EncodeSize.unimpl48to63 (op : Sys2Proof.Byte) : Sys2Proof.Laws.EncodeSize.Statement (.unimpl48to63 op) :=
  fun h => ⟨op, [], rfl, by rw [Sys2Proof.Laws.EncodeSize.format_of_unassigned (by decide) h]; rfl⟩
theorem Sys2Proof.Laws.EncodeSize.unimpl64to127 (op : Sys2Proof.Byte) : Sys2Proof.Laws.EncodeSize.Statement (.unimpl64to127 op) :=
  fun h => ⟨op, [], rfl, by rw [Sys2Proof.Laws.EncodeSize.format_of_unassigned (by decide) h]; rfl⟩
theorem Sys2Proof.Laws.EncodeSize.unimpl128to255 (op : Sys2Proof.Byte) : Sys2Proof.Laws.EncodeSize.Statement (.unimpl128to255 op) :=
  fun h => ⟨op, [], rfl, by rw [Sys2Proof.Laws.EncodeSize.format_of_unassigned (by decide) h]; rfl⟩
end

