-- ==== Sys2Proof/Tests/Slice0.lean ====
section
/-! SUPPORT. The model's own tests, each one step or one call. Expected results are the spec's: the encodings of
30_encoding.md R61 and R63 and spec/opcode_table.json, and the vectors of 95_test_vectors.md (sections 1 and 2) with
their conventions (N = 16, W = 8, `as_SHR`, the instruction at 0x0100, every other register at reset). The last part
shows, for every obligation with hypotheses, that something meets them. -/
namespace Sys2Proof.Tests
open Sys2Proof.Machine

/-! ### Helpers -/

/-- The state of a vector: reset, changed by `f`, with `bytes` at `p` (0x0100 unless `f` moves it). -/
def vec (bytes : List Byte) (f : State → State := id) : State :=
  let s := f { State.reset with p := 0x0100 }
  s.loadBytes s.p bytes

/-- A field of the state after one step. -/
def after {α : Type} (s : State) (f : State → α) : Option α :=
  match step s with
  | .next t => some (f t)
  | .fault _ => none
  | .refused _ => none

/-- The parameters with another N or W. -/
def withN (n : Nat) (s : State) : State := { s with params := { s.params with addrWidth := n } }
def withW (w : Nat) (s : State) : State := { s with params := { s.params with writeWidth := w } }
def withShrc (k : ShrcCarry) (s : State) : State := { s with params := { s.params with shrcCarry := k } }

/-- A cell given its contents. -/
def cell (addr : Word) (v : Byte) (s : State) : State := s.loadBytes addr [v]

/-! ### Well-formed instructions: each check with a term it refuses -/

theorem test_wf_refuses_15_as_16to19 : ¬ WellFormed (.unimpl16to19 15) := by decide
theorem test_wf_refuses_20_as_16to19 : ¬ WellFormed (.unimpl16to19 20) := by decide
theorem test_wf_refuses_48_as_46to47 : ¬ WellFormed (.unimpl46to47 48) := by decide
theorem test_wf_refuses_47_as_48to63 : ¬ WellFormed (.unimpl48to63 47) := by decide
theorem test_wf_refuses_128_as_64to127 : ¬ WellFormed (.unimpl64to127 128) := by decide
theorem test_wf_refuses_127_as_128to255 : ¬ WellFormed (.unimpl128to255 127) := by decide
theorem test_params_refuse_N17 : ¬ Params.Legal { addrWidth := 17, writeWidth := 8, shrcCarry := .asShr } := by decide
theorem test_params_refuse_W0 : ¬ Params.Legal { addrWidth := 6, writeWidth := 0, shrcCarry := .asShr } := by decide
theorem test_memory_refuses_unsorted : Memory.wf 64 [(5, 1), (3, 1)] = false := by decide
theorem test_memory_refuses_listed_default : Memory.wf 64 [(5, 0)] = false := by decide
theorem test_memory_refuses_cell_past_the_end : Memory.wf 64 [(64, 1)] = false := by decide

/-! ### Decoding: every constructor, its word written out from the encoding -/

theorem test_decode_moves :
    decodeTableWord 8 0b00000000 = some .hlt ∧
    decodeTableWord 8 0b00000001 = some .nop ∧
    decodeTableWord 24 0b001101000001001000000010 = some (.adr 0x12 0x34) ∧
    decodeTableWord 8 0b00000011 = some .lda ∧
    decodeTableWord 8 0b00000100 = some .sta ∧
    decodeTableWord 8 0b00000101 = some .ldb ∧
    decodeTableWord 8 0b00000110 = some .swp ∧
    decodeTableWord 8 0b00000111 = some .ldh ∧
    decodeTableWord 8 0b00001000 = some .ldl ∧
    decodeTableWord 8 0b00001001 = some .sth ∧
    decodeTableWord 8 0b00001010 = some .stl ∧
    decodeTableWord 8 0b00001011 = some .ldq ∧
    decodeTableWord 8 0b00001100 = some .stq ∧
    decodeTableWord 16 0b1010010100001101 = some (.cla 0xA5) ∧
    decodeTableWord 16 0b1010010100001110 = some (.clb 0xA5) ∧
    decodeTableWord 16 0b1010010100001111 = some (.clq 0xA5) := by decide

theorem test_decode_arithmetic :
    decodeTableWord 8 0b00010100 = some .add ∧
    decodeTableWord 8 0b00010101 = some .addc ∧
    decodeTableWord 8 0b00010110 = some .sub ∧
    decodeTableWord 8 0b00010111 = some .subc := by decide

theorem test_decode_shifts :
    decodeTableWord 8 0b00011000 = some .shl ∧
    decodeTableWord 8 0b00011001 = some .slhc ∧
    decodeTableWord 8 0b00011010 = some .shr ∧
    decodeTableWord 8 0b00011011 = some .shrc := by decide

theorem test_decode_logic :
    decodeTableWord 8 0b00011100 = some .and ∧
    decodeTableWord 8 0b00011101 = some .or ∧
    decodeTableWord 8 0b00011110 = some .xor ∧
    decodeTableWord 8 0b00011111 = some .nand ∧
    decodeTableWord 8 0b00100000 = some .nor ∧
    decodeTableWord 8 0b00100001 = some .xnor ∧
    decodeTableWord 8 0b00100010 = some .cksm ∧
    decodeTableWord 8 0b00100011 = some .cksmc := by decide

theorem test_decode_branches :
    decodeTableWord 8 0b00100100 = some .incr ∧
    decodeTableWord 8 0b00100101 = some .decr ∧
    decodeTableWord 8 0b00100110 = some .jmp ∧
    decodeTableWord 8 0b00100111 = some .jmpc ∧
    decodeTableWord 8 0b00101000 = some .jmpz ∧
    decodeTableWord 8 0b00101001 = some .jmpq := by decide

theorem test_decode_stack :
    decodeTableWord 8 0b00101010 = some .psh ∧
    decodeTableWord 8 0b00101011 = some .pop ∧
    decodeTableWord 8 0b00101100 = some .subr ∧
    decodeTableWord 8 0b00101101 = some .ret := by decide

theorem test_decode_unimplemented :
    decodeTableWord 8 0b00010000 = some (.unimpl16to19 16) ∧
    decodeTableWord 8 0b00010011 = some (.unimpl16to19 19) ∧
    decodeTableWord 8 0b00101110 = some (.unimpl46to47 46) ∧
    decodeTableWord 8 0b00101111 = some (.unimpl46to47 47) ∧
    decodeTableWord 8 0b00110000 = some (.unimpl48to63 48) ∧
    decodeTableWord 8 0b00111111 = some (.unimpl48to63 63) ∧
    decodeTableWord 8 0b01000000 = some (.unimpl64to127 64) ∧
    decodeTableWord 8 0b01111111 = some (.unimpl64to127 127) ∧
    decodeTableWord 8 0b10000000 = some (.unimpl128to255 128) ∧
    decodeTableWord 8 0b11111111 = some (.unimpl128to255 255) := by decide

theorem test_decode_needs_the_immediates :
    decode [0x02, 0x12] = .error (.truncated 0x02) ∧ decode [0x0D] = .error (.truncated 0x0D) ∧
    decode [] = .error .noBytes := ⟨rfl, rfl, rfl⟩

theorem test_fetch_word_runs_cla :
    after (State.reset.withFetchWord 16 0xA50D) (fun t => (t.a, t.p, t.status)) = some (0xA5, 2, .running) := by decide

/-! ### Steps: the vectors of 95_test_vectors.md, sections 2.1 to 2.8 -/

theorem test_hlt_halts_with_p_advanced :
    after (vec [0x00]) (fun t => (t.report, t.p, t.status)) = some (false, 0x0101, .halted) := by decide

theorem test_nop_wraps_p :
    after (vec [0x01] (fun s => { s with p := 0xFFFF })) (fun t => (t.report, t.p)) = some (true, 0) := by decide

theorem test_adr_high_byte_first :
    after (vec [0x02, 0x12, 0x34]) (fun t => (t.h, t.l, t.r, t.p)) = some (0x12, 0x34, 0x1234, 0x0103) := by decide

theorem test_adr_wraps_at_FFFE :
    after (vec [0x02, 0x12, 0x34] (fun s => { s with p := 0xFFFE })) (fun t => (t.h, t.l, t.r, t.p)) = some (0x12, 0x34, 0x1234, 0x0001) := by decide

theorem test_lda_reads_cell_of_r :
    after (vec [0x03] (fun s => cell 0x2010 0x77 { s with h := 0x20, l := 0x10 })) (fun t => (t.a, t.p)) = some (0x77, 0x0101) := by decide

theorem test_lda_aliases_with_N6 :
    after (vec [0x03] (fun s => cell 16 0x77 (withN 6 { s with h := 0x20, l := 0x10 }))) (fun t => t.a) = some 0x77 := by decide

theorem test_sta_aliases_with_N6 :
    after (vec [0x04] (fun s => withN 6 { s with a := 0x99, h := 0x20, l := 0x10 })) (fun t => (t.memRead 16, t.a)) = some (0x99, 0x99) := by decide

theorem test_sta_masks_with_W3 :
    after (vec [0x04] (fun s => withW 3 { s with a := 0x99, h := 0x20, l := 0x10 })) (fun t => t.memRead 0x2010) = some 1 := by decide

theorem test_ldb_copies_a :
    after (vec [0x05] (fun s => { s with a := 0x11, b := 0x22 })) (fun t => (t.a, t.b)) = some (0x11, 0x11) := by decide

theorem test_swp_exchanges :
    after (vec [0x06] (fun s => { s with a := 0x11, b := 0x22 })) (fun t => (t.a, t.b)) = some (0x22, 0x11) := by decide

theorem test_ldh_writes_high_byte :
    after (vec [0x07] (fun s => { s with a := 0x11, h := 0x44, l := 0x55 })) (fun t => (t.h, t.r)) = some (0x11, 0x1155) := by decide

theorem test_ldl_writes_low_byte :
    after (vec [0x08] (fun s => { s with a := 0x11, h := 0x44, l := 0x55 })) (fun t => (t.l, t.r)) = some (0x11, 0x4411) := by decide

theorem test_sth_reads_h :
    after (vec [0x09] (fun s => { s with a := 0x11, h := 0x44, l := 0x55 })) (fun t => (t.a, t.h)) = some (0x44, 0x44) := by decide

theorem test_stl_reads_l :
    after (vec [0x0A] (fun s => { s with a := 0x11, h := 0x44, l := 0x55 })) (fun t => (t.a, t.l)) = some (0x55, 0x55) := by decide

theorem test_ldq_zero_sets_z :
    after (vec [0x0B] (fun s => { s with a := 0, q := 0x33 })) (fun t => (t.q, t.z)) = some (0, 1) := by decide

theorem test_stq_reads_q :
    after (vec [0x0C] (fun s => { s with a := 0x11, q := 0x33 })) (fun t => (t.a, t.q)) = some (0x33, 0x33) := by decide

theorem test_cla_at_FFFF_reads_0000 :
    after (vec [0x0D, 0xA5] (fun s => { s with p := 0xFFFF })) (fun t => (t.a, t.p)) = some (0xA5, 0x0001) := by decide

theorem test_clb_writes_b :
    after (vec [0x0E, 0xA5]) (fun t => (t.b, t.p)) = some (0xA5, 0x0102) := by decide

theorem test_clq_zero_sets_z :
    after (vec [0x0F, 0x00] (fun s => { s with q := 7 })) (fun t => (t.q, t.z)) = some (0, 1) := by decide

theorem test_add_carries :
    after (vec [0x14] (fun s => { s with a := 200, b := 100 })) (fun t => (t.a, t.c)) = some (44, 1) := by decide

theorem test_add_ignores_old_carry :
    after (vec [0x14] (fun s => { s with a := 0, b := 0, c := 1 })) (fun t => (t.a, t.c)) = some (0, 0) := by decide

theorem test_addc_full :
    after (vec [0x15] (fun s => { s with a := 255, b := 255, c := 1 })) (fun t => (t.a, t.c)) = some (255, 1) := by decide

theorem test_addc_carry_alone_wraps :
    after (vec [0x15] (fun s => { s with a := 200, b := 55, c := 1 })) (fun t => (t.a, t.c)) = some (0, 1) := by decide

theorem test_sub_no_borrow :
    after (vec [0x16] (fun s => { s with a := 5, b := 3 })) (fun t => (t.a, t.c)) = some (2, 0) := by decide

theorem test_sub_borrow :
    after (vec [0x16] (fun s => { s with a := 3, b := 5 })) (fun t => (t.a, t.c)) = some (254, 1) := by decide

theorem test_subc_adds_the_carry :
    after (vec [0x17] (fun s => { s with a := 5, b := 3, c := 1 })) (fun t => (t.a, t.c)) = some (3, 0) := by decide

theorem test_subc_raw_512 :
    after (vec [0x17] (fun s => { s with a := 255, b := 0, c := 1 })) (fun t => (t.a, t.c)) = some (0, 0) := by decide

theorem test_shl_shifts_out_bit_7 :
    after (vec [0x18] (fun s => { s with a := 0x81 })) (fun t => (t.a, t.c)) = some (0x02, 1) := by decide

theorem test_slhc_shifts_by_two :
    after (vec [0x19] (fun s => { s with a := 0x7F, c := 1 })) (fun t => (t.a, t.c)) = some (0xFC, 1) := by decide

theorem test_slhc_3F_no_carry :
    after (vec [0x19] (fun s => { s with a := 0x3F, c := 1 })) (fun t => (t.a, t.c)) = some (0xFC, 0) := by decide

theorem test_shr_clears_old_carry :
    after (vec [0x1A] (fun s => { s with a := 0x80, c := 1 })) (fun t => (t.a, t.c)) = some (0x40, 0) := by decide

theorem test_shrc_by_129_is_zero :
    after (vec [0x1B] (fun s => { s with a := 0xFE, c := 1 })) (fun t => (t.a, t.c)) = some (0, 0) := by decide

theorem test_shrc_unchanged_keeps_c :
    after (vec [0x1B] (fun s => withShrc .unchanged { s with a := 0xFE, c := 1 })) (fun t => (t.a, t.c)) = some (0, 1) := by decide

theorem test_and_keeps_c :
    after (vec [0x1C] (fun s => { s with a := 0xF0, b := 0x3C, c := 1 })) (fun t => (t.a, t.b, t.c)) = some (0x30, 0x3C, 1) := by decide

theorem test_or_keeps_c :
    after (vec [0x1D] (fun s => { s with a := 0xF0, b := 0x3C, c := 1 })) (fun t => (t.a, t.b, t.c)) = some (0xFC, 0x3C, 1) := by decide

theorem test_xor_keeps_c :
    after (vec [0x1E] (fun s => { s with a := 0xF0, b := 0x3C, c := 1 })) (fun t => (t.a, t.b, t.c)) = some (0xCC, 0x3C, 1) := by decide

theorem test_nand_keeps_c :
    after (vec [0x1F] (fun s => { s with a := 0xF0, b := 0x3C, c := 1 })) (fun t => (t.a, t.b, t.c)) = some (0xCF, 0x3C, 1) := by decide

theorem test_nor_keeps_c :
    after (vec [0x20] (fun s => { s with a := 0xF0, b := 0x3C, c := 1 })) (fun t => (t.a, t.b, t.c)) = some (0x03, 0x3C, 1) := by decide

theorem test_xnor_keeps_c :
    after (vec [0x21] (fun s => { s with a := 0xF0, b := 0x3C, c := 1 })) (fun t => (t.a, t.b, t.c)) = some (0x33, 0x3C, 1) := by decide

theorem test_cksm_odd :
    after (vec [0x22] (fun s => { s with a := 0b10110000 })) (fun t => (t.a, t.c)) = some (0b10110000, 1) := by decide

theorem test_cksm_even_ignores_old_carry :
    after (vec [0x22] (fun s => { s with a := 0xFF, c := 1 })) (fun t => (t.a, t.c)) = some (0xFF, 0) := by decide

theorem test_cksmc_flips :
    after (vec [0x23] (fun s => { s with a := 0b10110000, c := 1 })) (fun t => (t.a, t.c)) = some (0b10110000, 0) := by decide

theorem test_cksmc_even_keeps :
    after (vec [0x23] (fun s => { s with a := 0xFF, c := 1 })) (fun t => (t.a, t.c)) = some (0xFF, 1) := by decide

theorem test_incr_wraps :
    after (vec [0x24] (fun s => { s with q := 255, c := 1 })) (fun t => (t.q, t.z, t.c)) = some (0, 1, 1) := by decide

theorem test_decr_wraps :
    after (vec [0x25] (fun s => { s with q := 0, c := 1 })) (fun t => (t.q, t.z, t.c)) = some (255, 0, 1) := by decide

theorem test_jmp_to_r :
    after (vec [0x26] (fun s => { s with h := 0xAB, l := 0xCD })) (fun t => t.p) = some 0xABCD := by decide

theorem test_jmpc_taken :
    after (vec [0x27] (fun s => { s with h := 0x12, l := 0x34, c := 1 })) (fun t => (t.p, t.c)) = some (0x1234, 1) := by decide

theorem test_jmpc_not_taken :
    after (vec [0x27] (fun s => { s with h := 0x12, l := 0x34 })) (fun t => t.p) = some 0x0101 := by decide

theorem test_jmpz_taken :
    after (vec [0x28] (fun s => { s with h := 0x12, l := 0x34, q := 0 })) (fun t => t.p) = some 0x1234 := by decide

theorem test_jmpz_not_taken :
    after (vec [0x28] (fun s => { s with h := 0x12, l := 0x34, q := 5 })) (fun t => t.p) = some 0x0101 := by decide

theorem test_jmpq_taken :
    after (vec [0x29] (fun s => { s with h := 0x12, l := 0x34, q := 5 })) (fun t => t.p) = some 0x1234 := by decide

theorem test_jmpq_not_taken :
    after (vec [0x29] (fun s => { s with h := 0x12, l := 0x34, q := 0 })) (fun t => t.p) = some 0x0101 := by decide

theorem test_psh_at_s0_wraps :
    after (vec [0x2A] (fun s => { s with a := 0x5A, s := 0 })) (fun t => (t.memRead 0xFF00, t.s)) = some (0x5A, 255) := by decide

theorem test_psh_with_N6 :
    after (vec [0x2A] (fun s => withN 6 { s with a := 0x5A })) (fun t => (Memory.read t.mem 63, t.s)) = some (0x5A, 254) := by decide

theorem test_pop_from_empty_wraps :
    after (vec [0x2B] (cell 0xFF00 0x3C)) (fun t => (t.a, t.s, t.memRead 0xFF00)) = some (0x3C, 0, 0x3C) := by decide

theorem test_subr_pushes_the_next_address :
    after (vec [0x2C] (fun s => { s with h := 0x56, l := 0x78, p := 0x1233 })) (fun t => (t.p, t.memRead 0xFFFF, t.memRead 0xFFFE, t.s)) = some (0x5678, 0x12, 0x34, 253) := by decide

theorem test_subr_at_FFFF_overwrites_itself :
    after (vec [0x2C] (fun s => { s with l := 0x10, p := 0xFFFF })) (fun t => (t.p, t.memRead 0xFFFF, t.memRead 0xFFFE, t.s)) = some (0x0010, 0, 0, 253) := by decide

theorem test_ret_wraps_and_keeps_p :
    after (vec [0x2D] (fun s => cell 0xFF00 0xBB (cell 0xFFFF 0xAA { s with s := 254 }))) (fun t => (t.l, t.h, t.s, t.p)) = some (0xAA, 0xBB, 0, 0x0101) := by decide

theorem test_unimplemented_16_halts :
    after (vec [0x10] (fun s => { s with a := 0x77 })) (fun t => (t.report, t.p, t.a, t.status)) = some (false, 0x0101, 0x77, .halted) := by decide

theorem test_unimplemented_47_halts :
    after (vec [0x2F] (fun s => { s with a := 0x77 })) (fun t => (t.report, t.p, t.a, t.status)) = some (false, 0x0101, 0x77, .halted) := by decide

theorem test_unimplemented_63_halts :
    after (vec [0x3F] (fun s => { s with a := 0x77 })) (fun t => (t.report, t.p, t.a, t.status)) = some (false, 0x0101, 0x77, .halted) := by decide

theorem test_unimplemented_100_halts :
    after (vec [0x64] (fun s => { s with a := 0x77 })) (fun t => (t.report, t.p, t.a, t.status)) = some (false, 0x0101, 0x77, .halted) := by decide

theorem test_unimplemented_255_halts :
    after (vec [0xFF] (fun s => { s with a := 0x77 })) (fun t => (t.report, t.p, t.a, t.status)) = some (false, 0x0101, 0x77, .halted) := by decide

theorem test_halted_step_fetches_nothing :
    after (vec [0x01] (fun s => { s with status := .halted })) (fun t => (t.report, t.p)) = some (false, 0x0100) := by decide

theorem test_bus_of_subr :
    busTrace (vec [0x2C] (fun s => { s with h := 0x56, l := 0x78, p := 0x1233 })) =
      [.read 0x1233, .write 0xFFFF 0x12, .write 0xFFFE 0x34] := by decide

theorem test_bus_of_adr_at_FFFE :
    busTrace (vec [0x02, 0x12, 0x34] (fun s => { s with p := 0xFFFE })) =
      [.read 0xFFFE, .read 0xFFFF, .read 0x0000] := by decide

theorem test_bus_of_ret :
    busTrace (vec [0x2D] (fun s => { s with s := 254 })) = [.read 0x0100, .read 0xFFFF, .read 0xFF00] := by decide

/-- 95_test_vectors.md E1 and E2. -/
theorem test_register_writes_reduce :
    (State.reset.setReg .a 300).a = 44 ∧ (State.reset.setReg .q 256).q = 0 ∧ (State.reset.setReg .s (-1)).s = 255 ∧
    (State.reset.setReg .p 0x1FFFF).p = 0xFFFF ∧ (State.reset.setReg .c 3).c = 1 := by decide

/-- 95_test_vectors.md E11, the launch: the image is not masked, whatever W. -/
theorem test_launch_is_not_masked :
    (match launch { addrWidth := 6, writeWidth := 3, shrcCarry := .asShr } (some [some 13, some 5, none]) with
      | .next s => (s.memRead 0, s.memRead 1, s.memRead 2, s.p)
      | _ => (0, 0, 0, 1)) = (13, 5, 0, 0) := by decide

/-! ### Witnesses: for every obligation with hypotheses, something that meets them together -/

theorem witness_halted_state :
    (vec [0x01] (fun s => { s with status := .halted })).status = .halted := by decide

theorem witness_RegisterApiFaultsOnUnknownNames :
    "x" ∉ ["a", "b", "q", "h", "l", "p", "s", "c", "r", "z"] := by decide

theorem witness_MemWriteStoresMaskedValueInOneCell :
    let s := vec []
    s.Inv ∧ s.params.writeWidth = 8 ∧ ¬ SameCell s.params 0xFFFF 0x0000 := by decide

theorem witness_AddressesAliasModuloMemorySize :
    let s := withN 6 (vec [])
    s.params.addrWidth ≤ 16 ∧ s.Inv ∧ (0x2010 : Word).toNat % 2 ^ s.params.addrWidth = (16 : Word).toNat % 2 ^ s.params.addrWidth ∧
    (0xFFFF : Word).toNat % 2 ^ s.params.addrWidth ≠ (0 : Word).toNat % 2 ^ s.params.addrWidth ∧ 63 < 2 ^ s.params.addrWidth := by decide

theorem witness_AddressesAliasModuloMemorySize_N16 :
    let s := vec []
    s.params.addrWidth ≤ 16 ∧ s.params.addrWidth = 16 ∧ SameCell s.params 0xFFFF 0xFFFF ∧ 65535 < 2 ^ s.params.addrWidth := by decide

theorem witness_CanonicalMemoriesWithEqualReadsAreEqual :
    Memory.wf 64 [(0, 7), (63, 1)] = true ∧ Memory.wf 64 (Memory.write [(0, 7)] 63 1) = true ∧
    ∀ i, i < 64 → Memory.read [(0, 7), (63, 1)] i = Memory.read (Memory.write [(0, 7)] 63 1) i := by decide

theorem witness_StackSlotCells :
    let s := withN 8 (vec [])
    s.params.Legal ∧ s.params.addrWidth ≤ 8 := by decide

theorem witness_StackSlotCells_N16 :
    let s := vec []
    s.params.Legal ∧ s.params.addrWidth = 16 := by decide

theorem witness_StoreIsSeenByTheNextFetch :
    let s := withN 6 { vec [] with h := 0xFF, l := 0x00 }
    s.Inv ∧ SameCell s.params s.p s.r := by decide

theorem witness_step_from_invariant :
    let s := vec [0x04] (fun s => withW 3 { s with a := 0x99, h := 0x20, l := 0x10 })
    s.Inv ∧ after s (fun t => t.memRead 0x2010) = some 1 ∧ s.memRead 0x2010 = 0 := by decide

theorem witness_LaunchPlacesTheImage :
    let P : Params := { addrWidth := 1, writeWidth := 8, shrcCarry := .asShr }
    P.Legal ∧ (∀ e ∈ [some 255, none, some 7], ∀ v, e = some v → v ≤ 255) ∧ 1 < 2 ^ P.addrWidth := ⟨by decide, by simp, by decide⟩

theorem witness_LaunchPlacesTheImage_refusal :
    let P : Params := { addrWidth := 1, writeWidth := 8, shrcCarry := .asShr }
    P.Legal ∧ ∃ e ∈ [none, some 256, some 1].take (2 ^ P.addrWidth), ∃ v, e = some v ∧ 255 < v := ⟨by decide, some 256, by simp, 256, rfl, by decide⟩

theorem witness_NoLaunchWithoutImageOrLegalParameters :
    Params.Legal { addrWidth := 1, writeWidth := 1, shrcCarry := .unchanged } ∧
    ({ addrWidth := 0, writeWidth := 8, shrcCarry := .asShr } : Params).addrWidth = 0 ∧
    16 < ({ addrWidth := 17, writeWidth := 8, shrcCarry := .asShr } : Params).addrWidth ∧
    ({ addrWidth := 6, writeWidth := 0, shrcCarry := .asShr } : Params).writeWidth = 0 ∧
    8 < ({ addrWidth := 6, writeWidth := 9, shrcCarry := .asShr } : Params).writeWidth := by decide

theorem witness_DecodeOfEncodeIsTheInstruction :
    WellFormed (.adr 0xFF 0x00) ∧ WellFormed (.unimpl16to19 19) ∧ WellFormed (.unimpl128to255 255) := by decide

theorem witness_DecodedBytesAreTheEncoding :
    decode [0x0D, 0xFF, 0x01] = .ok (.cla 0xFF, [0x01]) ∧ decode [0x2E] = .ok (.unimpl46to47 46, []) := ⟨rfl, rfl⟩

theorem witness_OpcodeFixesTheLength :
    decode (0x02 :: [0x12, 0x34, 0x56]) = .ok (.adr 0x12 0x34, [0x56]) ∧
    decode (0x02 :: [0x12]) = .error (.truncated 0x02) ∧ ([0x12] : List Byte).length + 1 < 3 := ⟨rfl, rfl, by decide⟩

theorem witness_StepRunsTheDecodedInstruction :
    let s := vec [0x02, 0x12, 0x34] (fun s => { s with p := 0xFFFE })
    s.status = .running ∧ decode (s.bytesAt s.p 3) = .ok (.adr 0x12 0x34, []) := ⟨by decide, rfl⟩

theorem witness_HaltsOn :
    let s := vec [0x10]
    s.status = .running ∧ HaltsOn (s.memRead s.p) := by decide

theorem witness_not_HaltsOn :
    let s := vec [0x2D]
    s.status = .running ∧ ¬ HaltsOn (s.memRead s.p) := by decide

theorem witness_ParametersAreFixed :
    let s := vec []
    Instr.shr ≠ .shrc ∧ dataAccesses .shr s = [] ∧ exec .shr s = .next { s with a := 0, c := 0 } := ⟨by decide, rfl, rfl⟩

theorem witness_FinalStateOfARunIsHaltedAndStable :
    (drive 1 (vec [0x00])).map (fun t => (t.p, t.status)) = some (0x0101, .halted) ∧
    after (vec [0x00]) State.report = some false ∧ after (vec [0x01]) State.report = some true := by decide

theorem witness_JumpToItselfNeverHalts :
    let s := vec [0x26] (fun s => { s with h := 0x01 })
    s.status = .running ∧ s.memRead s.p = 0x26 ∧ s.r = s.p := by decide

theorem witness_StepDependsOnlyOnTheCellsItReads :
    let s := vec [0x03]
    let s' := cell 0x2000 9 s
    SameButMem s s' ∧ s ≠ s' ∧ busTrace s = [.read 0x0100, .read 0x0000] ∧
    s'.memRead 0x0100 = s.memRead 0x0100 ∧ s'.memRead 0x0000 = s.memRead 0x0000 ∧ (after s id).isSome ∧ (after s' id).isSome := ⟨by unfold SameButMem; decide, by decide, by decide, by decide, by decide, by decide, by decide⟩

theorem witness_InstructionWritesOnlyItsListedRegisters :
    let s := vec []
    exec .nand s = .next { s with a := 0xFF } ∧ Reg.c ∉ regsWritten s.params .nand ∧ ¬ Instr.nand.Halting := ⟨rfl, by decide, by simp [Instr.Halting]⟩

theorem witness_StepWritesOnlyItsListedRegisters :
    let s := vec [0x0D, 0xA5]
    s.status = .running ∧ decode (s.bytesAt s.p 3) = .ok (.cla 0xA5, [0]) ∧ step s = .next { s with a := 0xA5, p := 0x0102 } ∧
    Reg.b ∉ regsWritten s.params (.cla 0xA5) ∧ Reg.p ∉ regsWritten s.params (.cla 0xA5) ∧ ¬ (Instr.cla 0xA5).Storing := ⟨by decide, rfl, rfl, by decide, by decide, by simp [Instr.Storing]⟩

theorem witness_InstructionWritesOnlyItsCells :
    let s := withN 6 (vec [])
    s.Inv ∧ ¬ SameCell s.params 0 s.stackAddr ∧ ¬ SameCell s.params 0 (stackSlot (s.s - 1)) ∧ ¬ SameCell s.params 1 s.r ∧ ¬ Instr.lda.Storing := ⟨by decide, by decide, by decide, by decide, by simp [Instr.Storing]⟩

theorem witness_InstructionReadsOnlyItsListedRegisters :
    let s := vec []
    let s' := { s with q := 9, s := 3 }
    s'.params = s.params ∧ s'.mem = s.mem ∧ (∀ n ∈ regsRead .add, s'.getReg n = s.getReg n) ∧ s'.p = s.p ∧
    exec .add s = .next { s with a := 0, c := 0 } ∧ exec .add s' = .next { s' with a := 0, c := 0 } := ⟨rfl, rfl, by decide, rfl, rfl, rfl⟩

theorem witness_nop_at_p :
    let s := vec [0x01]
    s.status = .running ∧ s.memRead s.p = 1 := by decide

theorem witness_adr_at_p :
    let s := vec [0x02, 0x12, 0x34]
    s.status = .running ∧ s.memRead s.p = 2 := by decide

theorem witness_cla_clb_clq_at_p :
    (vec [13]).status = .running ∧ (vec [13]).memRead 0x0100 = 13 ∧ (vec [14]).memRead 0x0100 = 14 ∧ (vec [15]).memRead 0x0100 = 15 := by decide

theorem witness_SwpExchangesAandB :
    (vec []).a = (vec []).b := by decide

theorem witness_SlhcShiftsByOnePlusCarry :
    (vec []).c = 0 ∧ (vec [] (fun s => { s with c := 1 })).c = 1 := by decide

theorem witness_ShrcShiftsByOnePlus128TimesCarry :
    (vec []).params.shrcCarry = .asShr ∧ (withShrc .unchanged (vec [])).params.shrcCarry = .unchanged := by decide

theorem witness_inv_of_small_memory :
    (withN 1 { vec [] with mem := [(1, 3)] }).Inv := by decide

theorem witness_PshThenPopIsAnInverse :
    let s := vec [] (fun s => { s with a := 0x5A, s := 0 })
    let t := s.push s.a
    let t' := { t with a := 1 }
    s.Inv ∧ exec .psh s = .next t ∧ t'.s = t.s ∧ t'.params = t.params ∧
    t'.memRead s.stackAddr = t.memRead s.stackAddr ∧ s.params.writeWidth = 8 := ⟨by decide, rfl, rfl, rfl, rfl, rfl⟩

theorem witness_SubrThenRetThenJmpResumesTheCaller :
    let s := withW 3 (vec [] (fun s => { s with h := 0x56, s := 0 }))
    let t := ((s.push (hiByte s.p)).push (loByte s.p)).setP s.r
    let t' := { t with a := 1, h := 0, p := 0x5610 }
    s.Inv ∧ exec .subr s = .next t ∧ t'.s = t.s ∧ t'.params = t.params ∧
    t'.memRead s.stackAddr = t.memRead s.stackAddr ∧
    t'.memRead (stackSlot (s.s - 1)) = t.memRead (stackSlot (s.s - 1)) := ⟨by decide, rfl, rfl, rfl, rfl, rfl⟩

theorem witness_SubrThenRetThenJmpResumesTheCaller_W8 :
    let s := vec [] (fun s => { s with h := 0x56 })
    s.Inv ∧ s.params.writeWidth = 8 ∧ exec .subr s = .next (((s.push (hiByte s.p)).push (loByte s.p)).setP s.r) := ⟨by decide, rfl, rfl⟩

theorem witness_CallIdiomJumpsAndPushesTheReturnAddress :
    let s := vec [0x02, 0x12, 0x34, 0x2C]
    s.Inv ∧ s.status = .running ∧ s.bytesAt s.p 4 = encodeSeq (idiomCall 0x1234) := by decide

theorem witness_CallIdiomJumpsAndPushesTheReturnAddress_goto :
    let s := vec [0x02, 0x12, 0x34, 0x29] (fun s => { s with q := 1 })
    s.status = .running ∧ s.bytesAt s.p 4 = encodeSeq (idiomGoto .jmpq 0x1234) ∧ (true = true ↔ s.q.toNat ≠ 0) := by decide

theorem witness_CallIdiomJumpsAndPushesTheReturnAddress_return :
    let s := vec [0x2D, 0x26] (fun s => { s with p := 0xFFFF })
    s.status = .running ∧ s.bytesAt s.p 2 = encodeSeq idiomReturn := by decide

end Sys2Proof.Tests
end

section
/-! The size of what is fetched (30_encoding.md R60, R61). -/
namespace Sys2Proof

/-- The number of bytes of a format (R61); `assemble_size` ties it to the encoder. -/
def Format.size : Format → Nat
  | .f1 => 1
  | .f2 => 2
  | .f3 => 3

theorem assemble_size (op i1 i2 : Byte) : (assemble op i1 i2).size = (formatOf op).size := by
  unfold assemble
  split
  case h_43 =>
    have hf : formatOf op = .f1 := by simp_all [formatOf]
    rw [hf]
    split_ifs <;> rfl
  all_goals rfl

end Sys2Proof

/-! The bus (00_scope.md R15, 20_memory.md R51): what an instruction does to the cells, and what a step can see of
them. -/
namespace Sys2Proof.Machine

theorem fetchInstr_size (s : State) : (fetchInstr s).1.size = (formatOf (s.memRead s.p)).size := by
  rcases h : formatOf (s.memRead s.p) with _ | _ | _
  · rw [fetchInstr_f1 h, assemble_size, h]
  · rw [fetchInstr_f2 h, assemble_size, h]
  · rw [fetchInstr_f3 h, assemble_size, h]

@[simp] theorem fetchInstr_mem (s : State) : (fetchInstr s).2.mem = s.mem := by
  obtain ⟨p, hp⟩ := fetchInstr_eq_setP s
  rw [hp]

@[simp] theorem fetchInstr_params (s : State) : (fetchInstr s).2.params = s.params := by
  obtain ⟨p, hp⟩ := fetchInstr_eq_setP s
  rw [hp]

theorem step_of_halted {s : State} (h : s.status = .halted) : step s = .next s := by
  simp only [step, h]

theorem busTrace_of_halted {s : State} (h : s.status = .halted) : busTrace s = [] := by
  simp only [busTrace, h]

theorem busTrace_of_running {s : State} (h : s.status = .running) :
    busTrace s = fetchReads s.p (fetchInstr s).1.size ++ dataAccesses (fetchInstr s).1 (fetchInstr s).2 := by
  simp only [busTrace, h]

/-- Fetches store nothing. -/
theorem foldl_apply_fetchReads (P : Params) (m : Memory) (p : Word) (n : Nat) :
    (fetchReads p n).foldl (BusEvent.apply P) m = m := by
  induction n generalizing p with
  | zero => rfl
  | succ n ih => exact ih (p + 1#16)

/-- The cells after an instruction are those before it with its data accesses applied in order. -/
theorem exec_mem {i : Instr} {s t : State} (h : exec i s = .next t) :
    t.mem = (dataAccesses i s).foldl (BusEvent.apply s.params) s.mem := by
  cases i
  case shrc => rw [exec_shrc_eq] at h; cases h; rfl
  case jmpc => rw [exec_jmpc_eq] at h; cases h; rfl
  case jmpz => rw [exec_jmpz_eq] at h; cases h; rfl
  case jmpq => rw [exec_jmpq_eq] at h; cases h; rfl
  all_goals cases h; rfl

/-- Settles O28: the fetches store nothing, and an instruction's data accesses give its cells. -/
theorem memoryFollowsTheBusTrace : Obligations.MemoryFollowsTheBusTrace := by
  intro s t h
  cases hs : s.status with
  | running =>
    rw [step_of_running hs] at h
    rw [busTrace_of_running hs, List.foldl_append, foldl_apply_fetchReads, exec_mem h, fetchInstr_mem,
      fetchInstr_params]
  | halted =>
    rw [step_of_halted hs] at h
    cases h
    rw [busTrace_of_halted hs]
    rfl

/-! ### Two blocks that differ in their cells -/

theorem SameButMem.eq_setMem {s s' : State} (h : SameButMem s s') : s' = s.setMem s'.mem := by
  calc s' = (s'.setMem []).setMem s'.mem := rfl
    _ = (s.setMem []).setMem s'.mem := by rw [h]
    _ = s.setMem s'.mem := rfl

/-- The transactions an instruction issues do not depend on the cells. -/
theorem dataAccesses_setMem (i : Instr) (s : State) (m : Memory) :
    dataAccesses i (s.setMem m) = dataAccesses i s := by
  cases i <;> rfl

/-- Over other cells that agree where an instruction reads, it ends in the same registers and status. -/
theorem exec_setMem_sameButMem {i : Instr} {s t t' : State} {m : Memory}
    (hread : ∀ addr, .read addr ∈ dataAccesses i s → (s.setMem m).memRead addr = s.memRead addr)
    (h : exec i s = .next t) (h' : exec i (s.setMem m) = .next t') : SameButMem t t' := by
  cases i
  case lda =>
    have hr := hread s.r (by simp [dataAccesses])
    cases h; cases h'
    exact congrArg (fun v => (s.setA v).setMem []) hr.symm
  case pop =>
    have hr := hread (stackSlot (s.s + 1#8)) (by simp [dataAccesses])
    cases h; cases h'
    exact congrArg (fun v => ((s.setS (s.s + 1#8)).setA v).setMem []) hr.symm
  case ret =>
    have hlo := hread (stackSlot (s.s + 1#8)) (by simp [dataAccesses])
    have hhi := hread (stackSlot (s.s + 2#8)) (by simp [dataAccesses])
    rw [show s.s + 2#8 = s.s + 1#8 + 1#8 by rw [BitVec.add_assoc]; rfl] at hhi
    cases h; cases h'
    exact congrArg₂ (fun lo hi => (((s.setS (s.s + 1#8 + 1#8)).setL lo).setH hi).setMem []) hlo.symm hhi.symm
  case shrc => rw [exec_shrc_eq] at h h'; cases h; cases h'; rfl
  case jmpc => rw [exec_jmpc_eq] at h h'; cases h; cases h'; rfl
  case jmpz => rw [exec_jmpz_eq] at h h'; cases h; cases h'; rfl
  case jmpq => rw [exec_jmpq_eq] at h h'; cases h; cases h'; rfl
  all_goals cases h; cases h'; rfl

/-- Over other cells that agree where the fetches read, the same instruction is fetched. -/
theorem fetchInstr_setMem {s : State} {m : Memory}
    (hread : ∀ addr, .read addr ∈ fetchReads s.p (fetchInstr s).1.size →
      (s.setMem m).memRead addr = s.memRead addr) :
    fetchInstr (s.setMem m) = ((fetchInstr s).1, (fetchInstr s).2.setMem m) := by
  rw [fetchInstr_size] at hread
  rcases hf : formatOf (s.memRead s.p) with _ | _ | _ <;> rw [hf] at hread
  · have h0 := hread s.p (by simp [Format.size, fetchReads])
    rw [fetchInstr_f1 hf, fetchInstr_f1 (by rw [← hf, ← h0]; rfl), State.setMem_p, h0]
    rfl
  · have h0 := hread s.p (by simp [Format.size, fetchReads])
    have h1 := hread (s.p + 1#16) (by simp [Format.size, fetchReads])
    rw [fetchInstr_f2 hf, fetchInstr_f2 (by rw [← hf, ← h0]; rfl), State.setMem_p, h0, h1]
    rfl
  · have h0 := hread s.p (by simp [Format.size, fetchReads])
    have h1 := hread (s.p + 1#16) (by simp [Format.size, fetchReads])
    have h2 := hread (s.p + 2#16) (by simp [Format.size, fetchReads, BitVec.add_assoc])
    rw [fetchInstr_f3 hf, fetchInstr_f3 (by rw [← hf, ← h0]; rfl), State.setMem_p, h0, h1, h2]
    rfl

/-- The fetches leave every read as it was. -/
theorem fetchInstr_memRead (s : State) (addr : Word) : (fetchInstr s).2.memRead addr = s.memRead addr := by
  simp only [State.memRead, fetchInstr_mem, fetchInstr_params]

theorem fetchInstr_setMem_memRead (s : State) (m : Memory) (addr : Word) :
    ((fetchInstr s).2.setMem m).memRead addr = (s.setMem m).memRead addr := by
  simp only [State.memRead, State.setMem_mem, State.setMem_params, fetchInstr_params]

/-- Settles O29: the fetch reads fix the instruction, and its data reads fix what it does to registers and status. -/
theorem stepDependsOnlyOnTheCellsItReads : Obligations.StepDependsOnlyOnTheCellsItReads := by
  intro s s' t t' hsame hread h h'
  obtain ⟨m, rfl⟩ : ∃ m, s' = s.setMem m := ⟨s'.mem, hsame.eq_setMem⟩
  cases hs : s.status with
  | running =>
    have hs' : (s.setMem m).status = .running := hs
    rw [busTrace_of_running hs] at hread
    have hfetch := fetchInstr_setMem (m := m) fun addr ha => hread addr (List.mem_append_left _ ha)
    rw [step_of_running hs] at h
    rw [step_of_running hs', hfetch] at h'
    refine ⟨?_, exec_setMem_sameButMem (fun addr ha => ?_) h h'⟩
    · rw [busTrace_of_running hs, busTrace_of_running hs', hfetch, dataAccesses_setMem, State.setMem_p]
    · rw [fetchInstr_setMem_memRead, hread addr (List.mem_append_right _ ha), fetchInstr_memRead]
  | halted =>
    have hs' : (s.setMem m).status = .halted := hs
    rw [step_of_halted hs] at h
    rw [step_of_halted hs'] at h'
    cases h; cases h'
    exact ⟨by rw [busTrace_of_halted hs, busTrace_of_halted hs'], hsame⟩

end Sys2Proof.Machine

/-! The run (00_scope.md R18). -/
namespace Sys2Proof.Machine

theorem State.report_eq_false_iff {s : State} : s.report = false ↔ s.status = .halted := by
  unfold State.report
  cases s.status <;> decide

theorem drive_succ_of_report_false {s t : State} (h : step s = .next t) (hr : t.report = false) (n : Nat) :
    drive (n + 1) s = some t := by
  simp [drive, h, hr]

theorem drive_succ_of_report_true {s t : State} (h : step s = .next t) (hr : t.report = true) (n : Nat) :
    drive (n + 1) s = drive n t := by
  simp [drive, h, hr]

/-- A run that has a final state began with a step that ended it or that the rest of the run follows. -/
theorem drive_succ_eq_some {n : Nat} {s t : State} (h : drive (n + 1) s = some t) :
    ∃ u, step s = .next u ∧ (u.report = false ∧ u = t ∨ u.report = true ∧ drive n u = some t) := by
  unfold drive at h
  split at h
  case h_1 u hu =>
    refine ⟨u, hu, ?_⟩
    split at h
    · exact .inr ⟨‹_›, h⟩
    · exact .inl ⟨by simpa using ‹¬ u.report = true›, by simpa using h⟩
  all_goals cases h

/-- The final state of a run is HALTED. -/
theorem drive_final_halted {n : Nat} {s t : State} (h : drive n s = some t) : t.status = .halted := by
  induction n generalizing s with
  | zero => cases h
  | succ n ih =>
    obtain ⟨u, -, ⟨hr, rfl⟩ | ⟨-, hd⟩⟩ := drive_succ_eq_some h
    · exact State.report_eq_false_iff.mp hr
    · exact ih hd

/-- More fuel does not change the final state of a run. -/
theorem drive_add_fuel {n : Nat} {s t : State} (h : drive n s = some t) (k : Nat) : drive (n + k) s = some t := by
  induction n generalizing s with
  | zero => cases h
  | succ n ih =>
    rw [Nat.add_right_comm]
    obtain ⟨u, hu, ⟨hr, rfl⟩ | ⟨hr, hd⟩⟩ := drive_succ_eq_some h
    · exact drive_succ_of_report_false hu hr (n + k)
    · rw [drive_succ_of_report_true hu hr, ih hd]

/-- Settles O24, by the report of the first step, and by induction on the fuel for the final state. -/
theorem finalStateOfARunIsHaltedAndStable : Obligations.FinalStateOfARunIsHaltedAndStable :=
  ⟨fun n _ _ h => ⟨fun hr => drive_succ_of_report_false h hr n, fun hr => drive_succ_of_report_true h hr n⟩,
    fun _ _ _ h => ⟨drive_final_halted h, step_of_halted (drive_final_halted h), drive_add_fuel h⟩⟩

end Sys2Proof.Machine
end

section
/-! The state (10_state.md): the register file, the derived registers, the cells, the invariant of every step, and the
register table of R26. -/
namespace Sys2Proof.Machine

/-! ### The register file (R20 to R24) -/

theorem ofInt_toNat (w : Nat) (v : Int) : ((BitVec.ofInt w v).toNat : Int) = v % 2 ^ w := by
  rw [BitVec.toNat_ofInt, Int.toNat_of_nonneg (Int.emod_nonneg v (by positivity)), Nat.cast_pow, Nat.cast_ofNat]

theorem setReg_getReg_same (s : State) (n : Reg) (v : Int) : ((s.setReg n v).getReg n : Int) = v % 2 ^ n.width := by
  cases n <;> exact ofInt_toNat _ v

/-- Each register has a field of its own, so a write to one is not seen in another (R22). -/
theorem setReg_getReg_of_ne (s : State) {n m : Reg} (v : Int) (hne : m ≠ n) :
    (s.setReg n v).getReg m = s.getReg m := by
  cases n <;> cases m <;> simp [State.setReg, State.getReg] at hne ⊢

@[simp] theorem setReg_status (s : State) (n : Reg) (v : Int) : (s.setReg n v).status = s.status := by
  cases n <;> rfl

@[simp] theorem setReg_mem (s : State) (n : Reg) (v : Int) : (s.setReg n v).mem = s.mem := by
  cases n <;> rfl

@[simp] theorem setReg_params (s : State) (n : Reg) (v : Int) : (s.setReg n v).params = s.params := by
  cases n <;> rfl

/-- Settles O3, register by register. -/
theorem registerWriteReducesToItsWidth : Obligations.RegisterWriteReducesToItsWidth := fun s n v =>
  ⟨setReg_getReg_same s n v, fun _ hne => setReg_getReg_of_ne s v hne, setReg_status s n v, setReg_mem s n v,
    setReg_params s n v⟩

theorem r_toNat (s : State) : s.r.toNat = s.h.toNat * 256 + s.l.toNat := by
  rw [State.r, BitVec.toNat_append, ← Nat.shiftLeft_add_eq_or_of_lt s.l.isLt, Nat.shiftLeft_eq]

theorem z_toNat (s : State) : s.z.toNat = if s.q.toNat = 0 then 1 else 0 := by
  have hq : s.q = 0#8 ↔ s.q.toNat = 0 := (BitVec.toNat_inj (y := 0#8)).symm
  simp only [State.z, hq]
  split <;> rfl

/-- Settles O5, from the concatenation `h ++ l` and the test of `q`. -/
theorem derivedRegistersFollowTheirSources : Obligations.DerivedRegistersFollowTheirSources := fun s =>
  ⟨r_toNat s, z_toNat s⟩

/-! ### Canonical cells (R31) -/

theorem Memory.read_cons_self (k : Nat) (v : Byte) (m : Memory) : Memory.read ((k, v) :: m) k = v := by
  simp [Memory.read]

theorem Memory.read_cons_of_ne {i k : Nat} (hne : i ≠ k) (v : Byte) (m : Memory) :
    Memory.read ((k, v) :: m) i = Memory.read m i := by
  simp [Memory.read, hne]

/-- The first cell a canonical memory lists holds no default, so one that starts after that cell reads otherwise there. -/
theorem Memory.wfFrom_le_of_read_cons {hi lo lo' k : Nat} {v : Byte} {m m' : Memory}
    (h : Memory.wfFrom hi lo ((k, v) :: m) = true) (h' : Memory.wfFrom hi lo' m' = true)
    (hread : Memory.read ((k, v) :: m) k = Memory.read m' k) : lo' ≤ k := by
  obtain ⟨-, -, hv, -⟩ := Memory.wfFrom_cons.mp h
  by_contra hlt
  rw [Memory.read_cons_self, Memory.read_below h' (by omega)] at hread
  exact hv hread

/-- From its own first index on, a canonical memory is canonical. -/
theorem Memory.wfFrom_head {hi lo k : Nat} {v : Byte} {m : Memory} (h : Memory.wfFrom hi lo ((k, v) :: m) = true) :
    Memory.wfFrom hi k ((k, v) :: m) = true :=
  Memory.wfFrom_cons.mpr ⟨le_rfl, (Memory.wfFrom_cons.mp h).2⟩

/-- Canonical memories that read alike list the same first cell, hence the same value there, hence the same rest. -/
theorem Memory.eq_of_read_eq {hi lo : Nat} {m m' : Memory} (h : Memory.wfFrom hi lo m = true)
    (h' : Memory.wfFrom hi lo m' = true) (hread : ∀ i, i < hi → Memory.read m i = Memory.read m' i) : m = m' := by
  induction m generalizing lo m' with
  | nil =>
    cases m' with
    | nil => rfl
    | cons e' m' =>
      obtain ⟨k', v'⟩ := e'
      obtain ⟨-, hk', hv', -⟩ := Memory.wfFrom_cons.mp h'
      have := hread k' hk'
      rw [Memory.read_cons_self] at this
      exact absurd this.symm hv'
  | cons e m ih =>
    obtain ⟨k, v⟩ := e
    obtain ⟨-, hk, hv, hm⟩ := Memory.wfFrom_cons.mp h
    cases m' with
    | nil =>
      have := hread k hk
      rw [Memory.read_cons_self] at this
      exact absurd this hv
    | cons e' m' =>
      obtain ⟨k', v'⟩ := e'
      obtain ⟨-, hk', -, hm'⟩ := Memory.wfFrom_cons.mp h'
      have hle : k' ≤ k := Memory.wfFrom_le_of_read_cons h (Memory.wfFrom_head h') (hread k hk)
      have hge : k ≤ k' := Memory.wfFrom_le_of_read_cons h' (Memory.wfFrom_head h) (hread k' hk').symm
      obtain rfl : k = k' := le_antisymm hge hle
      have hvv : v = v' := by simpa only [Memory.read_cons_self] using hread k hk
      have htail : m = m' := ih hm hm' fun i hi' => by
        rcases Nat.lt_or_ge k i with hlt | hge
        · have := hread i hi'
          rwa [Memory.read_cons_of_ne (by omega), Memory.read_cons_of_ne (by omega)] at this
        · rw [Memory.read_below hm (by omega), Memory.read_below hm' (by omega)]
      rw [hvv, htail]

/-- Settles O8, by induction on the first memory. -/
theorem canonicalMemoriesWithEqualReadsAreEqual : Obligations.CanonicalMemoriesWithEqualReadsAreEqual :=
  fun _ _ _ h h' hread => Memory.eq_of_read_eq h h' hread

/-! ### The parameters (R29) -/

/-- An instruction keeps the parameters, and acts alike under any others that differ only in what it does not depend
on: `SHRC_CARRY` for all but `SHRC`, N and W for those with no data access. -/
theorem exec_withParams {i : Instr} {s t : State} {P : Params}
    (hcarry : i = .shrc → P.shrcCarry = s.params.shrcCarry)
    (hbus : dataAccesses i s ≠ [] → P.addrWidth = s.params.addrWidth ∧ P.writeWidth = s.params.writeWidth)
    (h : exec i s = .next t) : exec i { s with params := P } = .next { t with params := P } := by
  cases i
  case shrc =>
    rw [exec_shrc_eq] at h ⊢
    cases h
    simp only [hcarry rfl]
  case jmpc => rw [exec_jmpc_eq] at h ⊢; cases h; rfl
  case jmpz => rw [exec_jmpz_eq] at h ⊢; cases h; rfl
  case jmpq => rw [exec_jmpq_eq] at h ⊢; cases h; rfl
  case lda | sta | psh | pop | subr | ret =>
    obtain ⟨n, w, k⟩ := P
    obtain ⟨rfl, rfl⟩ := hbus (List.cons_ne_nil _ _)
    cases h
    rfl
  all_goals cases h; rfl

/-- No instruction writes the parameters: run under its own, it ends with them. -/
theorem exec_params {i : Instr} {s t : State} (h : exec i s = .next t) : t.params = s.params := by
  have hsame : exec i s = .next { t with params := s.params } :=
    exec_withParams (fun _ => rfl) (fun _ => ⟨rfl, rfl⟩) h
  rw [h] at hsame
  injection hsame with ht
  rw [ht]

theorem step_params {s t : State} (h : step s = .next t) : t.params = s.params := by
  cases hs : s.status with
  | running =>
    rw [step_of_running hs] at h
    rw [exec_params h, fetchInstr_params]
  | halted =>
    rw [step_of_halted hs] at h
    cases h
    rfl

/-- Settles O23: each clause is one way of changing the parameters that the instruction does not depend on. -/
theorem parametersAreFixed : Obligations.ParametersAreFixed := by
  refine ⟨fun s t => step_params, fun i s t k hi h => ?_, fun i s t n w hd h => ?_⟩
  · rw [exec_params h]
    exact exec_withParams (fun e => absurd e hi) (fun _ => ⟨rfl, rfl⟩) h
  · rw [exec_params h]
    exact exec_withParams (fun _ => rfl) (fun hne => absurd hd hne) h

/-! ### What every step keeps (R5, R31) -/

theorem apply_wf {P : Params} {m : Memory} (h : Memory.wf P.cells m = true) (e : BusEvent) :
    Memory.wf P.cells (e.apply P m) = true := by
  cases e with
  | read _ => exact h
  | write addr data => exact busStore_wf h addr data

theorem foldl_apply_wf {P : Params} {m : Memory} (h : Memory.wf P.cells m = true) (es : List BusEvent) :
    Memory.wf P.cells (es.foldl (BusEvent.apply P) m) = true := by
  induction es generalizing m with
  | nil => exact h
  | cons e es ih => exact ih (apply_wf h e)

/-- Settles O26: a step keeps the parameters, and every transaction on its bus keeps the canonical form. -/
theorem everyStepKeepsTheInvariant : Obligations.EveryStepKeepsTheInvariant := by
  rintro s t ⟨hlegal, hwf⟩ h
  unfold State.Inv
  rw [step_params h, memoryFollowsTheBusTrace s t h]
  exact ⟨hlegal, foldl_apply_wf hwf _⟩

theorem maskWrite_lt {P : Params} (h : P.writeWidth ≤ 8) (v : Byte) : (maskWrite P v).toNat < 2 ^ P.writeWidth := by
  rw [maskWrite_toNat h]
  exact Nat.mod_lt _ (Nat.two_pow_pos _)

theorem apply_read {P : Params} {m : Memory} (hw : P.writeWidth ≤ 8) (h : Memory.wf P.cells m = true) (e : BusEvent)
    (i : Nat) :
    Memory.read (e.apply P m) i = Memory.read m i ∨ (Memory.read (e.apply P m) i).toNat < 2 ^ P.writeWidth := by
  cases e with
  | read _ => exact .inl rfl
  | write addr data =>
    simp only [BusEvent.apply, busStore, Memory.read_write h]
    split
    · exact .inr (maskWrite_lt hw data)
    · exact .inl rfl

theorem foldl_apply_read {P : Params} {m : Memory} (hw : P.writeWidth ≤ 8) (h : Memory.wf P.cells m = true)
    (es : List BusEvent) (i : Nat) :
    Memory.read (es.foldl (BusEvent.apply P) m) i = Memory.read m i ∨
      (Memory.read (es.foldl (BusEvent.apply P) m) i).toNat < 2 ^ P.writeWidth := by
  induction es generalizing m with
  | nil => exact .inl rfl
  | cons e es ih =>
    rcases ih (apply_wf h e) with hsame | hlt
    · rw [List.foldl_cons, hsame]
      exact apply_read hw h e i
    · exact .inr hlt

/-- Settles O11: a step changes cells by its write transactions only, and each of them is masked (R43). -/
theorem changedCellsHoldValuesBelowWriteWidth : Obligations.ChangedCellsHoldValuesBelowWriteWidth := by
  rintro s t ⟨⟨-, -, -, hw⟩, hwf⟩ h addr
  unfold State.memRead
  rw [step_params h, memoryFollowsTheBusTrace s t h]
  exact foldl_apply_read hw hwf _ _

/-! ### The registers an instruction reads (R26)

`s` and `s'` have one memory and one setting of the parameters, and agree on the registers the table lists as read. -/

section ReadBy
variable {i : Instr} {s s' t t' : State}

/-- The addresses and data of an instruction's transactions come from the registers it reads. -/
theorem dataAccesses_congr (hread : ∀ n ∈ regsRead i, s'.getReg n = s.getReg n) :
    dataAccesses i s' = dataAccesses i s := by
  cases i
  case lda | sta | psh | pop | subr | ret =>
    simp only [regsRead, List.forall_mem_cons, State.getReg, BitVec.toNat_inj] at hread
    simp [dataAccesses, State.r, State.stackAddr, hread]
  all_goals rfl

theorem exec_mem_congr (hP : s'.params = s.params) (hM : s'.mem = s.mem)
    (hread : ∀ n ∈ regsRead i, s'.getReg n = s.getReg n) (h : exec i s = .next t) (h' : exec i s' = .next t') :
    t'.mem = t.mem := by
  rw [exec_mem h, exec_mem h', hP, hM, dataAccesses_congr hread]

/-- From one `p` both go on at one address: a jump's target and condition come from the registers it reads, and no other
instruction moves `p`. -/
theorem exec_p_congr (hread : ∀ n ∈ regsRead i, s'.getReg n = s.getReg n) (hp : s'.p = s.p)
    (h : exec i s = .next t) (h' : exec i s' = .next t') : t'.p = t.p := by
  cases i <;> simp only [regsRead, List.forall_mem_cons, State.getReg, BitVec.toNat_inj] at hread
  case jmp | subr =>
    cases h
    cases h'
    simp [push_eq, State.r, hread]
  case jmpc | jmpz | jmpq =>
    simp only [exec_jmpc_eq, exec_jmpz_eq, exec_jmpq_eq] at h h'
    cases h
    cases h'
    simp [State.r, State.z, hread, hp]
  case shrc =>
    rw [exec_shrc_eq] at h h'
    cases h
    cases h'
    exact hp
  all_goals
    cases h
    cases h'
    exact hp

/-- What is written to a register is computed from the registers read, and from a cell whose address is. -/
theorem exec_written_congr (hP : s'.params = s.params) (hM : s'.mem = s.mem)
    (hread : ∀ n ∈ regsRead i, s'.getReg n = s.getReg n) (h : exec i s = .next t) (h' : exec i s' = .next t') :
    ∀ n ∈ regsWritten s.params i, n ≠ .p → t'.getReg n = t.getReg n := by
  cases i <;> simp only [regsRead, List.forall_mem_cons, State.getReg, BitVec.toNat_inj] at hread
  case jmp | jmpc | jmpz | jmpq => simp [regsWritten]
  case lda | pop | ret =>
    cases h
    cases h'
    simp [regsWritten, State.getReg, pop_eq, State.memRead, State.r, hP, hM, hread]
  case shrc =>
    rw [exec_shrc_eq] at h h'
    cases h
    cases h'
    cases hk : s.params.shrcCarry <;> simp [regsWritten, State.getReg, hP, hk, hread]
  all_goals
    cases h
    cases h'
    simp [regsWritten, State.getReg, push_eq, hread]

end ReadBy

/-- Settles O33: cells, registers and `p` after an instruction each follow from what it reads. -/
theorem instructionReadsOnlyItsListedRegisters : Obligations.InstructionReadsOnlyItsListedRegisters :=
  fun _ _ _ _ _ hP hM hread h h' =>
    ⟨exec_mem_congr hP hM hread h h', exec_written_congr hP hM hread h h', fun hp => exec_p_congr hread hp h h'⟩

end Sys2Proof.Machine
end

section
/-! The memory (20_memory.md): what a write is seen as, which addresses share a cell, where the stack slots lie, and
what the launch image leaves in each cell. -/
namespace Sys2Proof.Machine

/-! ### Writes and the addresses that see them (R41, R43, R53) -/

/-- A write depends on the cell only (R41). -/
theorem memWrite_congr (s : State) {x y : Word} (h : SameCell s.params x y) (v : Byte) :
    s.memWrite x v = s.memWrite y v := by
  simp only [memWrite_eq, busStore, h]

/-- Through an address of the written cell the masked value is read. -/
theorem memWrite_memRead_of_sameCell {s : State} (h : s.Inv) {x y : Word} (hxy : SameCell s.params y x) (v : Byte) :
    (s.memWrite x v).memRead y = maskWrite s.params v := by
  rw [memWrite_memRead h.2, if_pos hxy]

/-- Through an address of any other cell the write is not seen. -/
theorem memWrite_memRead_of_not_sameCell {s : State} (h : s.Inv) {x y : Word} (hxy : ¬ SameCell s.params y x)
    (v : Byte) : (s.memWrite x v).memRead y = s.memRead y := by
  rw [memWrite_memRead h.2, if_neg hxy]

theorem State.Inv.writeWidth_le {s : State} (h : s.Inv) : s.params.writeWidth ≤ 8 := by
  obtain ⟨⟨-, -, -, hw⟩, -⟩ := h
  exact hw

/-- Settles O6, by reading the written cell and the others. -/
theorem memWriteStoresMaskedValueInOneCell : Obligations.MemWriteStoresMaskedValueInOneCell := by
  intro s x v h
  have hread : (s.memWrite x v).memRead x = maskWrite s.params v := memWrite_memRead_of_sameCell h rfl v
  refine ⟨?_, fun hw => ?_, fun y hy => memWrite_memRead_of_not_sameCell h hy v, rfl⟩
  · rw [hread, maskWrite_toNat h.writeWidth_le]
  · rw [hread, maskWrite_eight hw]

/-- Settles O10: the store is read back through `p`, which reaches the cell of `r`. -/
theorem storeIsSeenByTheNextFetch : Obligations.StoreIsSeenByTheNextFetch := by
  intro s h hpr
  refine ⟨s.memWrite s.r s.a, rfl, ?_, rfl⟩
  have hfetch : (s.memWrite s.r s.a).fetch8.1 = maskWrite s.params s.a := memWrite_memRead_of_sameCell h hpr s.a
  rw [hfetch, maskWrite_toNat h.writeWidth_le]

/-- With N = 16 an address is its own cell (R41). -/
theorem cellOf_of_addrWidth_sixteen {P : Params} (h : P.addrWidth = 16) (addr : Word) : cellOf P addr = addr.toNat := by
  rw [cellOf, Params.cells, h]
  exact Nat.mod_eq_of_lt addr.isLt

/-- 2^N divides 65536, so each residue class has equally many of the 65536 addresses (R41). -/
theorem countP_cellOf {P : Params} (hn : P.addrWidth ≤ 16) {k : Nat} (hk : k < P.cells) :
    (List.range 65536).countP (fun addr => cellOf P (BitVec.ofNat 16 addr) = k) = 65536 / P.cells := by
  have hdvd : P.cells ∣ 65536 := Nat.pow_dvd_pow 2 hn
  have hcell (addr : Nat) : cellOf P (BitVec.ofNat 16 addr) = k ↔ addr ≡ k [MOD P.cells] := by
    rw [cellOf, BitVec.toNat_ofNat, Nat.mod_mod_of_dvd addr (b := 2 ^ 16) hdvd, Nat.ModEq, Nat.mod_eq_of_lt hk]
  simp only [hcell]
  rw [← Nat.count, Nat.count_modEq_card (r := P.cells) _ (Nat.two_pow_pos _), Nat.mod_eq_zero_of_dvd hdvd,
    if_neg (Nat.not_lt_zero _), Nat.add_zero]

/-- Settles O7: reads and writes go through the cell of an address, and a cell is a residue modulo 2^N. -/
theorem addressesAliasModuloMemorySize : Obligations.AddressesAliasModuloMemorySize := by
  refine fun s hn => ⟨fun x y v hxy => ⟨memRead_congr s hxy, memWrite_congr s hxy v⟩, fun h x y v => ?_,
    fun h16 x y hxy => ?_, fun k hk => countP_cellOf hn hk⟩
  · split
    next hxy =>
      rw [memWrite_memRead_of_sameCell h hxy.symm, maskWrite_toNat h.writeWidth_le]
    next hxy =>
      rw [memWrite_memRead_of_not_sameCell h (Ne.symm hxy)]
  · simp only [SameCell, cellOf_of_addrWidth_sixteen h16] at hxy
    exact BitVec.eq_of_toNat_eq hxy

/-! ### The stack slots (R49) -/

theorem cellOf_stackSlot (P : Params) (x : Byte) : cellOf P (stackSlot x) = (0xFF00 + x.toNat) % P.cells := by
  rw [cellOf, stackSlot_toNat]

/-- A memory of at most 256 cells has the slot's low byte only, as 2^N divides 0xFF00. -/
theorem cellOf_stackSlot_of_le_eight {P : Params} (h : P.addrWidth ≤ 8) (x : Byte) :
    cellOf P (stackSlot x) = x.toNat % P.cells := by
  obtain ⟨d, hd⟩ : P.cells ∣ 0xFF00 := (Nat.pow_dvd_pow 2 h).trans ⟨255, rfl⟩
  rw [cellOf_stackSlot, hd, Nat.mul_add_mod]

/-- 2^N is even, so an address and its cell have one parity. -/
theorem cellOf_mod_two {P : Params} (h : 1 ≤ P.addrWidth) (addr : Word) : cellOf P addr % 2 = addr.toNat % 2 :=
  Nat.mod_mod_of_dvd _ (Nat.pow_dvd_pow 2 h)

/-- Neighbouring slots differ in parity, also where `s` wraps from 0 to 255 (D16). -/
theorem cellOf_stackSlot_pred_ne {P : Params} (h : 1 ≤ P.addrWidth) (x : Byte) :
    cellOf P (stackSlot (x - 1#8)) ≠ cellOf P (stackSlot x) := by
  intro heq
  have hparity : (stackSlot (x - 1#8)).toNat % 2 = (stackSlot x).toNat % 2 := by
    rw [← cellOf_mod_two h, ← cellOf_mod_two h, heq]
  rw [stackSlot_toNat, stackSlot_toNat] at hparity
  bv_omega

/-- Settles O9, from the slot's address `0xFF00 + s` reduced modulo 2^N, and its parity. -/
theorem stackSlotCells : Obligations.StackSlotCells := by
  rintro s ⟨hn, -⟩
  refine ⟨cellOf_stackSlot _ _, fun h8 => cellOf_stackSlot_of_le_eight h8 _, fun h16 => ?_,
    cellOf_stackSlot_pred_ne hn _⟩
  rw [cellOf_of_addrWidth_sixteen h16]
  exact stackSlot_toNat s.s

/-! ### The launch image (R55) -/

theorem ImageEntry.ok_iff {e : ImageEntry} : e.ok = true ↔ ∀ v, e = some v → v ≤ 255 := by
  cases e <;> simp [ImageEntry.ok]

/-- Under legal parameters the image decides, by the entries that are loaded. -/
theorem launch_some {P : Params} (h : P.Legal) (es : List ImageEntry) :
    launch P (some es) = if (es.take P.cells).all ImageEntry.ok then
        .next (State.resetOver P (loadImage [] 0 (es.take P.cells)))
      else .refused .imageValueTooLarge := by
  rw [launch, if_pos h]

/-- Entries placed from cell `i` on leave the cells below `i`. -/
theorem loadImage_read_below {n i j : Nat} {m : Memory} {es : List ImageEntry} (h : Memory.wf n m = true)
    (hi : i + es.length ≤ n) (hj : j < i) : Memory.read (loadImage m i es) j = Memory.read m j := by
  induction es generalizing m i with
  | nil => rfl
  | cons e es ih =>
    rw [List.length_cons] at hi
    cases e with
    | none => exact ih h (by omega) (by omega)
    | some v =>
      rw [loadImage, ih (Memory.wf_write h (by omega)) (by omega) (by omega), Memory.read_write h, if_neg (by omega)]

/-- Entry `k` of an image placed from cell `i` on stands in cell `i + k`; a blank or a missing entry leaves it. -/
theorem loadImage_read {n i : Nat} {m : Memory} {es : List ImageEntry} (h : Memory.wf n m = true)
    (hi : i + es.length ≤ n) (k : Nat) :
    Memory.read (loadImage m i es) (i + k) =
      ((es[k]?.getD none).map (BitVec.ofNat 8)).getD (Memory.read m (i + k)) := by
  induction es generalizing m i k with
  | nil => rfl
  | cons e es ih =>
    rw [List.length_cons] at hi
    cases e with
    | none =>
      cases k with
      | zero =>
        rw [loadImage, loadImage_read_below h (by omega) (by omega)]
        rfl
      | succ k =>
        rw [loadImage, ← Nat.add_assoc, Nat.add_right_comm, ih h (by omega)]
        rfl
    | some v =>
      have hwf := Memory.wf_write (v := BitVec.ofNat 8 v) h (show i < n by omega)
      cases k with
      | zero =>
        rw [loadImage, loadImage_read_below hwf (by omega) (by omega), Memory.read_write h, if_pos (Nat.add_zero i)]
        rfl
      | succ k =>
        rw [loadImage, ← Nat.add_assoc, Nat.add_right_comm, ih hwf (by omega), Memory.read_write h,
          if_neg (by omega)]
        rfl

/-- Over cells of 0, an image of bytes is read back as it is. -/
theorem loadImage_nil_read_toNat {n : Nat} {es : List ImageEntry} (hlen : es.length ≤ n)
    (hok : ∀ e ∈ es, ImageEntry.ok e = true) (k : Nat) :
    (Memory.read (loadImage [] 0 es) k).toNat = (es[k]?.getD none).getD 0 := by
  have hread := loadImage_read (Memory.wf_nil n) (i := 0) (by rwa [Nat.zero_add]) k
  rw [Nat.zero_add] at hread
  rw [hread]
  rcases hk : es[k]? with _ | _ | v
  · rfl
  · rfl
  · have hv : v ≤ 255 := ImageEntry.ok_iff.mp (hok _ (List.mem_of_getElem? hk)) v rfl
    exact Nat.mod_eq_of_lt (Nat.lt_succ_of_le hv)

/-- Settles O12: the loaded entries are the first 2^N, and each is placed in the cell of its own index. -/
theorem launchPlacesTheImage : Obligations.LaunchPlacesTheImage := by
  intro P es hP
  have hlen : (es.take P.cells).length ≤ P.cells := List.length_take_le _ _
  refine ⟨fun hes => ?_, fun ⟨e, he, v, hv, hlarge⟩ => ?_⟩
  · have hok : ∀ e ∈ es.take P.cells, ImageEntry.ok e = true := fun e he =>
      ImageEntry.ok_iff.mpr (hes e (List.mem_of_mem_take he))
    refine ⟨State.resetOver P (loadImage [] 0 (es.take P.cells)),
      by rw [launch_some hP, if_pos (List.all_eq_true.mpr hok)], ⟨hP, ?_⟩, rfl, fun i hi => ?_⟩
    · exact loadImage_wf (Memory.wf_nil _) (by rwa [Nat.zero_add])
    · rw [← List.getElem?_take_of_lt hi]
      exact loadImage_nil_read_toNat hlen hok i
  · rw [launch_some hP, if_neg]
    intro hall
    have hle := ImageEntry.ok_iff.mp (List.all_eq_true.mp hall e he) v hv
    omega

end Sys2Proof.Machine
end

section
/-! The encoding (30_encoding.md sections 1 and 2): the decoder and the encoder undo each other, and the opcode alone
fixes what is decoded and how long it is. -/
namespace Sys2Proof
open Machine

/-! ### The opcode map (R60, R63 to R65) -/

theorem opcodeIn_iff {lo hi : Nat} {op : Byte} : opcodeIn lo hi op = true ↔ lo ≤ op.toNat ∧ op.toNat ≤ hi := by
  simp [opcodeIn]

theorem formatOf_size (op : Byte) : (formatOf op).size =
    if op.toNat = 2 then 3 else if op.toNat = 13 ∨ op.toNat = 14 ∨ op.toNat = 15 then 2 else 1 := by
  simp only [formatOf, ← BitVec.toNat_inj, BitVec.reduceToNat]
  split_ifs <;> rfl

/-- Opcodes from 16 on have no immediates. -/
theorem formatOf_of_ge_sixteen {op : Byte} (h : 16 ≤ op.toNat) : formatOf op = .f1 :=
  Laws.EncodeSize.format_of_unassigned le_rfl (opcodeIn_iff.mpr ⟨h, Nat.le_of_lt_succ op.isLt⟩)

/-- The opcodes that the map assigns to no instruction (R64). -/
abbrev Unassigned (op : Byte) : Prop := (16 ≤ op.toNat ∧ op.toNat ≤ 19) ∨ 46 ≤ op.toNat

/-- An unassigned opcode is assembled to its unimplemented row (R64). -/
theorem assemble_of_unassigned {op : Byte} (h : Unassigned op) (i1 i2 : Byte) :
    assemble op i1 i2 =
      if op.toNat < 20 then .unimpl16to19 op
      else if op.toNat < 48 then .unimpl46to47 op
      else if op.toNat < 64 then .unimpl48to63 op
      else if op.toNat < 128 then .unimpl64to127 op
      else .unimpl128to255 op := by
  unfold assemble
  split
  case h_43 => rfl
  all_goals exact absurd h (by decide)

/-- Any other opcode is assembled to a well-formed one, and only 0 to a halting one. -/
theorem assemble_of_assigned {op : Byte} (h : ¬ Unassigned op) (i1 i2 : Byte) :
    WellFormed (assemble op i1 i2) ∧ ((assemble op i1 i2).Halting ↔ op.toNat = 0) ∧
      (assemble op i1 i2 = .hlt ↔ op.toNat = 0) := by
  unfold assemble
  split
  case h_43 =>
    -- The rows above are all the assigned opcodes.
    exfalso
    simp_all only [imp_false]
    bv_omega
  all_goals exact ⟨rfl, by simp [Instr.Halting], by simp⟩

theorem assemble_wf (op i1 i2 : Byte) : WellFormed (assemble op i1 i2) := by
  by_cases h : Unassigned op
  · rw [assemble_of_unassigned h]
    split_ifs <;> exact opcodeIn_iff.mpr (by omega)
  · exact (assemble_of_assigned h i1 i2).1

theorem assemble_halting_iff (op i1 i2 : Byte) : (assemble op i1 i2).Halting ↔ HaltsOn op := by
  by_cases h : Unassigned op
  · refine iff_of_true ?_ (.inr h)
    rw [assemble_of_unassigned h]
    split_ifs <;> simp [Instr.Halting]
  · obtain ⟨-, hhalt, -⟩ := assemble_of_assigned h i1 i2
    rw [hhalt, HaltsOn, or_iff_left h]

theorem assemble_eq_hlt_iff (op i1 i2 : Byte) : assemble op i1 i2 = .hlt ↔ op.toNat = 0 := by
  by_cases h : Unassigned op
  · refine iff_of_false ?_ (by omega)
    rw [assemble_of_unassigned h]
    split_ifs <;> simp
  · obtain ⟨-, -, hhlt⟩ := assemble_of_assigned h i1 i2
    exact hhlt

/-- The encoder gives back the opcode and the immediates that its format has. -/
theorem encode_assemble (op i1 i2 : Byte) : encode (assemble op i1 i2) = [op, i1, i2].take (formatOf op).size := by
  unfold assemble
  split
  case h_43 =>
    have hf : formatOf op = .f1 := by simp_all [formatOf]
    rw [hf]
    split_ifs <;> rfl
  all_goals rfl

/-! ### The decoder, by format (R60, R61) -/

theorem decode_f1 {op : Byte} (h : formatOf op = .f1) (rest : List Byte) :
    decode (op :: rest) = .ok (assemble op 0#8 0#8, rest) := by
  simp only [decode, h]

theorem decode_f2 {op : Byte} (h : formatOf op = .f2) (i1 : Byte) (rest : List Byte) :
    decode (op :: i1 :: rest) = .ok (assemble op i1 0#8, rest) := by
  simp only [decode, h]

theorem decode_f3 {op : Byte} (h : formatOf op = .f3) (i1 i2 : Byte) (rest : List Byte) :
    decode (op :: i1 :: i2 :: rest) = .ok (assemble op i1 i2, rest) := by
  simp only [decode, h]

/-- What the decoder accepts is assembled from its own first bytes, which are those the encoder writes. -/
theorem decode_cons_eq_ok {op : Byte} {bytes rest : List Byte} {i : Instr} (h : decode (op :: bytes) = .ok (i, rest)) :
    ∃ i1 i2, i = assemble op i1 i2 ∧ encode i ++ rest = op :: bytes := by
  rcases hf : formatOf op with _ | _ | _
  · rw [decode_f1 hf] at h
    cases h
    exact ⟨_, _, rfl, by rw [encode_assemble, hf]; rfl⟩
  · rcases bytes with _ | ⟨i1, bytes⟩
    · simp [decode, hf] at h
    · rw [decode_f2 hf] at h
      cases h
      exact ⟨_, _, rfl, by rw [encode_assemble, hf]; rfl⟩
  · rcases bytes with _ | ⟨i1, _ | ⟨i2, bytes⟩⟩
    · simp [decode, hf] at h
    · simp [decode, hf] at h
    · rw [decode_f3 hf] at h
      cases h
      exact ⟨_, _, rfl, by rw [encode_assemble, hf]; rfl⟩

theorem decode_error_iff (op : Byte) (bytes : List Byte) :
    (∃ e, decode (op :: bytes) = .error e) ↔ bytes.length + 1 < (formatOf op).size := by
  rcases hf : formatOf op with _ | _ | _
  · simp [decode_f1 hf, Format.size]
  · rcases bytes with _ | ⟨i1, rest⟩
    · simp [decode, hf, Format.size]
    · simp [decode_f2 hf, Format.size]
  · rcases bytes with _ | ⟨i1, _ | ⟨i2, rest⟩⟩
    · simp [decode, hf, Format.size]
    · simp [decode, hf, Format.size]
    · simp [decode_f3 hf, Format.size]

/-- Three bytes are enough for any opcode. -/
theorem decode_three (op i1 i2 : Byte) (rest : List Byte) :
    ∃ j1 j2 rest', decode (op :: i1 :: i2 :: rest) = .ok (assemble op j1 j2, rest') := by
  rcases hf : formatOf op with _ | _ | _
  · exact ⟨_, _, _, decode_f1 hf _⟩
  · exact ⟨_, _, _, decode_f2 hf _ _⟩
  · exact ⟨_, _, _, decode_f3 hf _ _ _⟩

/-! ### The statements about the encoding -/

/-- Settles O14, row by row of the opcode map: an assigned opcode is a literal the decoder computes on, an unassigned
one falls in its row's range. -/
theorem decodeOfEncodeIsTheInstruction : Obligations.DecodeOfEncodeIsTheInstruction := by
  intro i rest h
  cases i
  case unimpl16to19 op | unimpl46to47 op | unimpl48to63 op | unimpl64to127 op | unimpl128to255 op =>
    obtain ⟨hlo, hhi⟩ := opcodeIn_iff.mp h
    rw [encode, List.singleton_append, decode_f1 (formatOf_of_ge_sixteen (by omega)), assemble_of_unassigned (by omega)]
    simp (disch := omega) only [if_pos, if_neg]
  all_goals rfl

/-- Settles O15: an empty list is refused, and the first byte of any other fixes what is assembled from them. -/
theorem decodedBytesAreTheEncoding : Obligations.DecodedBytesAreTheEncoding := by
  intro bytes rest i h
  cases bytes with
  | nil => cases h
  | cons op bytes =>
    obtain ⟨i1, i2, rfl, hbytes⟩ := decode_cons_eq_ok h
    exact ⟨assemble_wf op i1 i2, hbytes⟩

/-- Settles O16: three bytes decode to what the opcode assembles to, and that halts as `HaltsOn` says. -/
theorem decoderIsTotalOnOpcodes : Obligations.DecoderIsTotalOnOpcodes := by
  intro op i1 i2 rest
  obtain ⟨j1, j2, rest', h⟩ := decode_three op i1 i2 rest
  refine ⟨_, rest', h, ?_, assemble_eq_hlt_iff op j1 j2⟩
  rw [assemble_halting_iff, Ne, assemble_eq_hlt_iff]
  omega

/-- Settles O17: the length is the size of the opcode's format, and the bytes decoded and left over are all of them. -/
theorem opcodeFixesTheLength : Obligations.OpcodeFixesTheLength := by
  intro op bytes
  rw [← formatOf_size]
  refine ⟨decode_error_iff op bytes, fun i rest h => ?_⟩
  obtain ⟨i1, i2, rfl, hbytes⟩ := decode_cons_eq_ok h
  have hlen : (assemble op i1 i2).size + rest.length = bytes.length + 1 := by
    rw [Instr.size, ← List.length_append, hbytes, List.length_cons]
  rw [assemble_size] at hlen ⊢
  exact ⟨rfl, hlen.symm⟩

/-- Settles O18: each sample's opcode is a literal the decoder computes on. -/
theorem sampleEncodingsDecode : Obligations.SampleEncodingsDecode :=
  ⟨rfl, rfl, rfl, rfl, rfl, rfl, rfl, rfl, rfl⟩

end Sys2Proof
end

section
/-! The step and its frame (30_encoding.md section 3): a step executes what the decoder reads at `p`, and writes nothing
but what the tables of 10_state.md R26 and 20_memory.md R51 list. -/
namespace Sys2Proof.Machine

/-! ### The instruction at `p` (R69, R71) -/

/-- The fetches move `p` past the bytes of the instruction (R71). -/
theorem fetchInstr_snd (s : State) :
    (fetchInstr s).2 = { s with p := s.p + BitVec.ofNat 16 (fetchInstr s).1.size } := by
  rw [fetchInstr_size]
  rcases h : formatOf (s.memRead s.p) with _ | _ | _
  · rw [fetchInstr_f1 h]; rfl
  · rw [fetchInstr_f2 h]; rfl
  · rw [fetchInstr_f3 h]; rfl

/-- The decoder reads from the bytes at `p` the instruction that is fetched. -/
theorem fetchInstr_fst_of_decode {s : State} {i : Instr} {rest : List Byte}
    (h : decode (s.bytesAt s.p 3) = .ok (i, rest)) : (fetchInstr s).1 = i := by
  have hbytes : s.bytesAt s.p 3 = [s.memRead s.p, s.memRead (s.p + 1#16), s.memRead (s.p + 2#16)] := by
    simp [State.bytesAt, BitVec.add_assoc]
  rw [hbytes] at h
  rcases hf : formatOf (s.memRead s.p) with _ | _ | _
  · rw [decode_f1 hf] at h; cases h; rw [fetchInstr_f1 hf]
  · rw [decode_f2 hf] at h; cases h; rw [fetchInstr_f2 hf]
  · rw [decode_f3 hf] at h; cases h; rw [fetchInstr_f3 hf]

/-- Settles O19: fetching and decoding read one instruction, and the fetches move only `p`. -/
theorem stepRunsTheDecodedInstruction : Obligations.StepRunsTheDecodedInstruction := by
  intro s i rest hs h
  rw [step_of_running hs, fetchInstr_snd, fetchInstr_fst_of_decode h]

/-! ### Registers and status (R26, R70) -/

theorem exec_getReg_of_not_mem_regsWritten {i : Instr} {s t : State} {n : Reg} (h : exec i s = .next t)
    (hn : n ∉ regsWritten s.params i) : t.getReg n = s.getReg n := by
  cases i
  case shrc =>
    rw [exec_shrc_eq] at h
    cases h
    cases hk : s.params.shrcCarry <;> cases n <;> simp [regsWritten, State.getReg, hk] at hn ⊢
  case jmpc | jmpz | jmpq =>
    simp only [exec_jmpc_eq, exec_jmpz_eq, exec_jmpq_eq] at h
    cases h
    cases n <;> simp [regsWritten, State.getReg] at hn ⊢
  all_goals
    cases h
    cases n <;> simp [regsWritten, State.getReg, push_eq, pop_eq, halt_eq, memWrite_eq] at hn ⊢

/-- Only a halting instruction writes the status. -/
theorem exec_status_of_not_halting {i : Instr} {s t : State} (hi : ¬ i.Halting) (h : exec i s = .next t) :
    t.status = s.status := by
  cases i
  case hlt => exact absurd (.inl rfl) hi
  case unimpl16to19 op | unimpl46to47 op | unimpl48to63 op | unimpl64to127 op | unimpl128to255 op =>
    exact absurd (.inr ⟨op, by simp⟩) hi
  case shrc => rw [exec_shrc_eq] at h; cases h; rfl
  case jmpc | jmpz | jmpq =>
    simp only [exec_jmpc_eq, exec_jmpz_eq, exec_jmpq_eq] at h
    cases h
    rfl
  all_goals cases h; rfl

/-- Settles O30, instruction by instruction against the table. -/
theorem instructionWritesOnlyItsListedRegisters : Obligations.InstructionWritesOnlyItsListedRegisters :=
  fun _ _ _ h => ⟨fun _ hn => exec_getReg_of_not_mem_regsWritten h hn, fun hi => exec_status_of_not_halting hi h⟩

/-! ### Cells (R51, R70) -/

/-- An instruction that does not store issues no write transaction, so the cells stay (R51). -/
theorem exec_mem_of_not_storing {i : Instr} {s t : State} (hi : ¬ i.Storing) (h : exec i s = .next t) :
    t.mem = s.mem := by
  rw [exec_mem h]
  cases i
  case sta | psh | subr => simp [Instr.Storing] at hi
  all_goals rfl

theorem exec_memRead_of_not_storing {i : Instr} {s t : State} (hi : ¬ i.Storing) (h : exec i s = .next t)
    (addr : Word) : t.memRead addr = s.memRead addr := by
  simp only [State.memRead, exec_mem_of_not_storing hi h, exec_params h]

/-- Settles O32: the non-storing instructions leave the cells, and a store is seen through its own cell only. -/
theorem instructionWritesOnlyItsCells : Obligations.InstructionWritesOnlyItsCells := by
  refine fun s t => ⟨fun i => exec_memRead_of_not_storing, fun hs =>
    ⟨fun h x hx => ?_, fun h x hx => ?_, fun h x hx hx' => ?_⟩⟩
  · cases h
    exact memWrite_memRead_of_not_sameCell hs hx s.a
  · cases h
    rw [push_memRead hs.2, if_neg hx]
  · cases h
    calc ((s.push (hiByte s.p)).push (loByte s.p)).memRead x
        = (s.push (hiByte s.p)).memRead x := by rw [push_memRead (push_wf hs.2 _)]; exact if_neg hx'
      _ = s.memRead x := by rw [push_memRead hs.2, if_neg hx]

/-- Settles O31: the step is the instruction after its fetches, which move `p` and nothing else. -/
theorem stepWritesOnlyItsListedRegisters : Obligations.StepWritesOnlyItsListedRegisters := by
  intro s t i rest hs hdecode h
  rw [stepRunsTheDecodedInstruction s i rest hs hdecode] at h
  refine ⟨fun n hp hn => ?_, fun hn => ?_, fun hi addr => exec_memRead_of_not_storing hi h addr⟩
  · rw [exec_getReg_of_not_mem_regsWritten h hn]
    cases n <;> simp [State.getReg] at hp ⊢
  · rw [exec_getReg_of_not_mem_regsWritten h hn]
    simp [State.getReg]

end Sys2Proof.Machine
end

section
/-! The idioms of 30_encoding.md section 4 (R73), each as two steps from its bytes at `p`. -/
namespace Sys2Proof.Machine

/-! ### Instructions that stand in memory one after another -/

theorem size_le_three (i : Instr) : i.size ≤ 3 := by
  cases i <;> simp [Instr.size, encode]

theorem bytesAt_length (s : State) (addr : Word) (n : Nat) : (s.bytesAt addr n).length = n := by
  induction n generalizing addr with
  | zero => rfl
  | succ n ih => exact congrArg (· + 1) (ih (addr + 1#16))

theorem bytesAt_add (s : State) (addr : Word) (m n : Nat) :
    s.bytesAt addr (m + n) = s.bytesAt addr m ++ s.bytesAt (addr + BitVec.ofNat 16 m) n := by
  induction m generalizing addr with
  | zero => simp [State.bytesAt]
  | succ m ih =>
    have haddr : addr + 1#16 + BitVec.ofNat 16 m = addr + BitVec.ofNat 16 (m + 1) := by
      rw [BitVec.add_assoc, ← BitVec.ofNat_add, Nat.add_comm]
    rw [Nat.add_right_comm, State.bytesAt, ih, haddr]
    rfl

theorem bytesAt_congr {s t : State} (hmem : t.mem = s.mem) (hparams : t.params = s.params) (addr : Word) (n : Nat) :
    t.bytesAt addr n = s.bytesAt addr n := by
  induction n generalizing addr with
  | zero => rfl
  | succ n ih => rw [State.bytesAt, State.bytesAt, ih, State.memRead, State.memRead, hmem, hparams]

/-- A step runs the instruction whose encoding stands at `p`. -/
theorem step_of_bytesAt {i : Instr} {s : State} (hs : s.status = .running) (hi : WellFormed i)
    (h : s.bytesAt s.p i.size = encode i) : step s = exec i { s with p := s.p + BitVec.ofNat 16 i.size } := by
  obtain ⟨k, hk⟩ := Nat.exists_eq_add_of_le (size_le_three i)
  refine stepRunsTheDecodedInstruction s i (s.bytesAt (s.p + BitVec.ofNat 16 i.size) k) hs ?_
  rw [hk, bytesAt_add, h]
  exact decodeOfEncodeIsTheInstruction i _ hi

/-- Two steps run the two instructions whose encodings stand at `p`, when the first of them neither stores nor halts nor
moves `p` itself. -/
theorem step_step_of_bytesAt {i j : Instr} {s t : State} (hs : s.status = .running)
    (hi : WellFormed i) (hj : WellFormed j) (hstore : ¬ i.Storing) (hhalt : ¬ i.Halting)
    (hp : Reg.p ∉ regsWritten s.params i) (hbytes : s.bytesAt s.p (i.size + j.size) = encodeSeq [i, j])
    (h : exec i { s with p := s.p + BitVec.ofNat 16 i.size } = .next t) :
    step s = .next t ∧ step t = exec j { t with p := s.p + BitVec.ofNat 16 (i.size + j.size) } := by
  have htp : t.p = s.p + BitVec.ofNat 16 i.size := BitVec.eq_of_toNat_eq (exec_getReg_of_not_mem_regsWritten h hp)
  have hmem : t.mem = s.mem := (exec_mem_of_not_storing hstore h).trans rfl
  have hparams : t.params = s.params := (exec_params h).trans rfl
  have hstatus : t.status = s.status := (exec_status_of_not_halting hhalt h).trans rfl
  obtain ⟨hbi, hbj⟩ : s.bytesAt s.p i.size = encode i ∧ s.bytesAt t.p j.size = encode j := by
    rw [bytesAt_add, ← htp] at hbytes
    exact List.append_inj (hbytes.trans (by simp [encodeSeq])) (bytesAt_length ..)
  rw [step_of_bytesAt hs hi hbi, step_of_bytesAt (hstatus.trans hs) hj (by rw [bytesAt_congr hmem hparams, hbj]), htp,
    BitVec.add_assoc, ← BitVec.ofNat_add]
  exact ⟨h, rfl⟩

/-! ### The two bytes of an address -/

theorem hiByte_append_loByte (v : Word) : hiByte v ++ loByte v = v := by
  rw [hiByte, loByte, BitVec.extractLsb'_append_extractLsb'_eq_extractLsb' (start₁ := 0) (len₁ := 8) rfl,
    BitVec.extractLsb'_eq_self]

theorem hiByte_toNat (v : Word) : (hiByte v).toNat = v.toNat / 256 := by
  have := v.isLt
  simp [hiByte, Nat.shiftRight_eq_div_pow]
  omega

theorem loByte_toNat (v : Word) : (loByte v).toNat = v.toNat % 256 := by
  simp [loByte]

/-! ### The instructions of the idioms (R142 to R145, R163, R164) -/

/-- The return address goes to the slots of `s` and `s - 1`, which are never one cell (D16). -/
theorem exec_subr_pushes_p {s : State} (h : s.Inv) : ∃ t, exec .subr s = .next t ∧ t.p = s.r ∧ t.r = s.r ∧
    t.s = s.s - 2#8 ∧ t.memRead s.stackAddr = maskWrite s.params (hiByte s.p) ∧
    t.memRead (stackSlot (s.s - 1#8)) = maskWrite s.params (loByte s.p) := by
  have hread (y : Word) : ((s.push (hiByte s.p)).push (loByte s.p)).memRead y =
      if SameCell s.params y (stackSlot (s.s - 1#8)) then maskWrite s.params (loByte s.p)
      else (s.push (hiByte s.p)).memRead y := push_memRead (push_wf h.2 _) _ y
  refine ⟨_, rfl, rfl, rfl, by simp [push_eq, BitVec.sub_sub], (hread _).trans ?_, (hread _).trans (if_pos rfl)⟩
  have hne : ¬ SameCell s.params s.stackAddr (stackSlot (s.s - 1#8)) := (cellOf_stackSlot_pred_ne h.1.1 s.s).symm
  rw [if_neg hne, push_memRead h.2, if_pos rfl]

theorem exec_ret_eq (s : State) : exec .ret s = .next { s with
    s := s.s + 2#8, l := s.memRead (stackSlot (s.s + 1#8)), h := s.memRead (stackSlot (s.s + 2#8)) } := by
  rw [show s.s + 2#8 = s.s + 1#8 + 1#8 by rw [BitVec.add_assoc]; rfl]
  rfl

/-- `i` is one of the four jumps, and `taken` says whether it jumps in state `s` (R142 to R145). -/
def JumpTaken (i : Instr) (taken : Bool) (s : State) : Prop :=
  (i = .jmp ∧ taken = true) ∨ (i = .jmpc ∧ (taken = true ↔ s.c.toNat = 1)) ∨
    (i = .jmpz ∧ (taken = true ↔ s.q.toNat = 0)) ∨ (i = .jmpq ∧ (taken = true ↔ s.q.toNat ≠ 0))

theorem JumpTaken.exec_eq {i : Instr} {taken : Bool} {s : State} (h : JumpTaken i taken s) :
    exec i s = .next { s with p := if taken then s.r else s.p } := by
  rcases h with ⟨rfl, rfl⟩ | ⟨rfl, h⟩ | ⟨rfl, h⟩ | ⟨rfl, h⟩
  · rfl
  · simp only [exec_jmpc_eq, h, ← BitVec.toNat_inj, BitVec.reduceToNat]
  · simp [exec_jmpz_eq, h, State.z, ← BitVec.toNat_inj]
  · simp [exec_jmpq_eq, h, State.z, ← BitVec.toNat_inj]

theorem JumpTaken.wf_and_size {i : Instr} {taken : Bool} {s : State} (h : JumpTaken i taken s) :
    WellFormed i ∧ i.size = 1 := by
  rcases h with ⟨rfl, -⟩ | ⟨rfl, -⟩ | ⟨rfl, -⟩ | ⟨rfl, -⟩ <;> exact ⟨rfl, rfl⟩

/-! ### The idioms (R73) -/

/-- `ADR` sets `r` to the target, and the next step runs the instruction after it. -/
theorem step_step_of_adr {j : Instr} {s : State} {target : Word} (hs : s.status = .running) (hj : WellFormed j)
    (hbytes : s.bytesAt s.p (3 + j.size) = encodeSeq [.adr (hiByte target) (loByte target), j]) :
    step s = .next { s with h := hiByte target, l := loByte target, p := s.p + 3#16 } ∧
      step { s with h := hiByte target, l := loByte target, p := s.p + 3#16 } =
        exec j { s with h := hiByte target, l := loByte target, p := s.p + BitVec.ofNat 16 (3 + j.size) } :=
  step_step_of_bytesAt (i := .adr (hiByte target) (loByte target)) hs rfl hj (by simp [Instr.Storing])
    (by simp [Instr.Halting]) (by simp [regsWritten]) hbytes rfl

theorem callIdiom_steps {s : State} {target : Word} (hs : s.status = .running) (hinv : s.Inv)
    (hbytes : s.bytesAt s.p 4 = encodeSeq (idiomCall target)) :
    ∃ t u, step s = .next t ∧ step t = .next u ∧ u.p = target ∧ u.r = target ∧ u.s = s.s - 2#8 ∧
      (u.memRead s.stackAddr).toNat = (s.p + 4#16).toNat / 256 % 2 ^ s.params.writeWidth ∧
      (u.memRead (stackSlot (s.s - 1#8))).toNat = (s.p + 4#16).toNat % 256 % 2 ^ s.params.writeWidth := by
  obtain ⟨hadr, hsubr⟩ := step_step_of_adr (j := .subr) hs rfl hbytes
  obtain ⟨u, hu, hup, hur, hus, hhi, hlo⟩ := exec_subr_pushes_p
    (s := { s with h := hiByte target, l := loByte target, p := s.p + 4#16 }) hinv
  have hw : s.params.writeWidth ≤ 8 := hinv.writeWidth_le
  refine ⟨_, u, hadr, hsubr.trans hu, hup.trans (hiByte_append_loByte target),
    hur.trans (hiByte_append_loByte target), hus, ?_, ?_⟩
  · rw [← hiByte_toNat, ← maskWrite_toNat hw]
    exact congrArg BitVec.toNat hhi
  · rw [← loByte_toNat, ← maskWrite_toNat hw]
    exact congrArg BitVec.toNat hlo

theorem gotoIdiom_steps {s : State} {target : Word} {i : Instr} {taken : Bool} (hs : s.status = .running)
    (hi : JumpTaken i taken s) (hbytes : s.bytesAt s.p 4 = encodeSeq (idiomGoto i target)) :
    ∃ t u, step s = .next t ∧ step t = .next u ∧ u.r = target ∧
      u = { s with h := u.h, l := u.l, p := if taken then target else s.p + 4#16 } := by
  obtain ⟨hwf, hsize⟩ := hi.wf_and_size
  obtain ⟨hadr, hjump⟩ := step_step_of_adr hs hwf (by rw [hsize]; exact hbytes)
  have hexec := JumpTaken.exec_eq
    (s := { s with h := hiByte target, l := loByte target, p := s.p + BitVec.ofNat 16 (3 + i.size) }) hi
  refine ⟨_, _, hadr, hjump.trans hexec, hiByte_append_loByte target, ?_⟩
  rw [hsize, State.r, hiByte_append_loByte]

theorem returnIdiom_steps {s : State} (hs : s.status = .running) (hbytes : s.bytesAt s.p 2 = encodeSeq idiomReturn) :
    ∃ t u, step s = .next t ∧ step t = .next u ∧
      u.h = s.memRead (stackSlot (s.s + 2#8)) ∧ u.l = s.memRead (stackSlot (s.s + 1#8)) ∧
      u = { s with s := s.s + 2#8, h := u.h, l := u.l, p := u.r } := by
  obtain ⟨hret, hjmp⟩ := step_step_of_bytesAt (i := .ret) (j := .jmp) hs rfl rfl (by simp [Instr.Storing])
    (by simp [Instr.Halting]) (by simp [regsWritten]) hbytes (exec_ret_eq _)
  exact ⟨_, _, hret, hjmp, rfl, rfl, rfl⟩

/-- Settles O60: in each idiom the second step runs where the first one left `p`, on the `r` that the first one set. -/
theorem callIdiomJumpsAndPushesTheReturnAddress : Obligations.CallIdiomJumpsAndPushesTheReturnAddress :=
  fun _ _ hs => ⟨callIdiom_steps hs, fun _ _ hi hbytes => gotoIdiom_steps hs hi hbytes, returnIdiom_steps hs⟩

end Sys2Proof.Machine
end

section
/-! Halt, no-op, address set-up and register moves (40_control_and_moves.md): what each does, and what a step does where
its opcode stands at `p`. -/
namespace Sys2Proof.Machine

/-! ### The step by the format of the opcode at `p` (R61, R69) -/

theorem step_f1 {s : State} {op : Byte} (hs : s.status = .running) (hop : s.memRead s.p = op)
    (hf : formatOf op = .f1) : step s = exec (assemble op 0#8 0#8) { s with p := s.p + 1#16 } := by
  subst hop
  rw [step_of_running hs, fetchInstr_f1 hf]

theorem step_f2 {s : State} {op : Byte} (hs : s.status = .running) (hop : s.memRead s.p = op)
    (hf : formatOf op = .f2) :
    step s = exec (assemble op (s.memRead (s.p + 1#16)) 0#8) { s with p := s.p + 2#16 } := by
  subst hop
  rw [step_of_running hs, fetchInstr_f2 hf]

theorem step_f3 {s : State} {op : Byte} (hs : s.status = .running) (hop : s.memRead s.p = op)
    (hf : formatOf op = .f3) :
    step s = exec (assemble op (s.memRead (s.p + 1#16)) (s.memRead (s.p + 2#16))) { s with p := s.p + 3#16 } := by
  subst hop
  rw [step_of_running hs, fetchInstr_f3 hf]

/-! ### The cell of `r`, and `z` (R23, R24, R41) -/

theorem cellOf_r (s : State) : cellOf s.params s.r = (s.h.toNat * 256 + s.l.toNat) % 2 ^ s.params.addrWidth := by
  rw [cellOf, r_toNat]

theorem z_eq_one_iff (s : State) : s.z = 1#1 ↔ s.q.toNat = 0 := by
  rw [← BitVec.toNat_inj, z_toNat]
  simp

/-! ### Memory moves (R83, R84) -/

/-- Settles O39: the bus stores the masked `a` in the cell of `r`, and any other cell reads as before. -/
theorem staStoresAInTheCellOfR : Obligations.StaStoresAInTheCellOfR := by
  intro s h
  refine ⟨s.memWrite s.r s.a, rfl, rfl, fun i _ => ?_⟩
  have hread : Memory.read (s.memWrite s.r s.a).mem i =
      if i = cellOf s.params s.r then maskWrite s.params s.a else Memory.read s.mem i := Memory.read_write h.2
  rw [hread, apply_ite BitVec.toNat, maskWrite_toNat h.writeWidth_le, cellOf_r]

/-- Settles O38: the load reads the cell of `r`. -/
theorem ldaLoadsTheCellOfR : Obligations.LdaLoadsTheCellOfR := by
  intro s
  rw [← cellOf_r]
  rfl

/-! ### Halt and no-op (R64, R80, R81) -/

theorem exec_of_halting {i : Instr} (h : i.Halting) (s : State) : exec i s = .next { s with status := .halted } := by
  rcases h with rfl | ⟨op, rfl | rfl | rfl | rfl | rfl⟩ <;> rfl

/-- No halting opcode has immediates. -/
theorem HaltsOn.formatOf_eq {op : Byte} (h : HaltsOn op) : formatOf op = .f1 := by
  by_cases h0 : op.toNat = 0
  · rw [BitVec.eq_of_toNat_eq (y := 0#8) h0]
    rfl
  · exact formatOf_of_ge_sixteen (by omega)

/-- Settles O34: a halting opcode is assembled to a halting instruction, and these only set the status. -/
theorem haltingInstructionsOnlySetHalted : Obligations.HaltingInstructionsOnlySetHalted := by
  refine fun s op => ⟨rfl, rfl, rfl, rfl, rfl, rfl, fun hs hop => ?_⟩
  rw [step_f1 hs rfl hop.formatOf_eq, exec_of_halting ((assemble_halting_iff ..).mpr hop)]

/-- Settles O35, from the fetch of one byte. -/
theorem nopOnlyAdvancesP : Obligations.NopOnlyAdvancesP := fun _ =>
  ⟨rfl, fun hs hop => step_f1 hs hop rfl⟩

/-! ### Immediates (R82, R93 to R95) -/

/-- Settles O36, from the fetch of three bytes. -/
theorem adrSetsTheAddressPair : Obligations.AdrSetsTheAddressPair := fun _ =>
  ⟨fun _ _ => ⟨_, rfl, rfl, r_toNat _⟩, fun hs hop => step_f3 hs hop rfl⟩

/-- Settles O37, from the fetch of two bytes. -/
theorem immediateLoadsWriteTheByteAfterTheOpcode : Obligations.ImmediateLoadsWriteTheByteAfterTheOpcode := fun _ =>
  ⟨fun _ => ⟨rfl, rfl, _, rfl, rfl, z_eq_one_iff _⟩,
    fun hs => ⟨fun hop => step_f2 hs hop rfl, fun hop => step_f2 hs hop rfl, fun hop => step_f2 hs hop rfl⟩⟩

/-! ### Register moves (R85 to R92) -/

/-- Settles O40: each copy is one register write, and `r` and `z` follow it. -/
theorem registerCopies : Obligations.RegisterCopies := fun _ =>
  ⟨rfl, ⟨_, rfl, rfl, r_toNat _⟩, ⟨_, rfl, rfl, r_toNat _⟩, rfl, rfl, ⟨_, rfl, rfl, z_eq_one_iff _⟩, rfl⟩

/-- Settles O41: the second exchange undoes the first, and an exchange of equal values writes what was there. -/
theorem swpExchangesAandB : Obligations.SwpExchangesAandB := by
  refine fun s => ⟨_, rfl, rfl, rfl, fun hab => ?_⟩
  calc (s.setA s.b).setB s.a
      = (s.setA s.a).setB s.b := by rw [hab]
    _ = s := rfl

end Sys2Proof.Machine
end

section
/-! Arithmetic (41_arithmetic.md): the 9-bit sum, the difference and its borrow, and both over two bytes. -/
namespace Sys2Proof.Machine

/-! ### Narrowed results and their carries (R10, R100 to R104) -/

theorem low8_toNat (v : Nat) : (low8 v).toNat = v % 256 := BitVec.toNat_ofNat v 8

theorem carryOut_toNat (v : Nat) : (carryOut v).toNat = if v > 255 then 1 else 0 := apply_ite BitVec.toNat ..

/-- Carry and byte together lose nothing of a 9-bit result. -/
theorem carryOut_low8_toNat {v : Nat} (h : v < 512) : (carryOut v).toNat * 256 + (low8 v).toNat = v := by
  rw [carryOut_toNat, low8_toNat]
  split <;> omega

theorem borrowOut_eq_one_iff (raw : Nat) : borrowOut raw = 1#1 ↔ raw ≤ 255 := by simp [borrowOut]

theorem not8_toNat (v : Byte) : not8 v.toNat = 255 - v.toNat :=
  calc v.toNat ^^^ 255
      = (v ^^^ 255#8).toNat := (BitVec.toNat_xor v 255#8).symm
    _ = (~~~v).toNat := congrArg BitVec.toNat BitVec.xor_allOnes
    _ = 255 - v.toNat := BitVec.toNat_not

/-- `SUB` is the case `k = 0`, `SUBC` the case `k = c` (R102, R103). -/
theorem low8_add_not8_toNat (x y : Byte) (k : Nat) :
    ((low8 (x.toNat + not8 y.toNat + 1 + k)).toNat : Int) = (x.toNat - y.toNat + k : Int) % 256 := by
  rw [low8_toNat, not8_toNat]
  omega

theorem borrowOut_add_not8_eq_one_iff (x y : Byte) (k : Nat) :
    borrowOut (x.toNat + not8 y.toNat + 1 + k) = 1#1 ↔ x.toNat + k < y.toNat := by
  rw [borrowOut_eq_one_iff, not8_toNat]
  omega

/-! ### Addition (R100, R101) -/

/-- Settles O42: both sums fit in 9 bits. -/
theorem additionResults : Obligations.AdditionResults := fun _ =>
  ⟨⟨_, rfl, rfl, carryOut_low8_toNat (by omega)⟩, ⟨_, rfl, rfl, carryOut_low8_toNat (by omega)⟩⟩

/-- Settles O44: `ADD` hands its carry to `ADDC`, and each loses nothing of its sum. -/
theorem addThenAddcAddsSixteenBits : Obligations.AddThenAddcAddsSixteenBits := by
  intro s ah bh
  obtain ⟨t, ht, -, hlow⟩ := (additionResults s).1
  obtain ⟨u, hu, -, hhigh⟩ := (additionResults { t with a := ah, b := bh }).2
  exact ⟨t, u, ht, hu, by linear_combination 256 * hhigh + hlow⟩

/-! ### Subtraction (R102, R103) -/

/-- Settles O43: adding the complement and 1 subtracts modulo 256, and carries out exactly when nothing is borrowed. -/
theorem subtractionResults : Obligations.SubtractionResults := by
  intro s
  have hsub := low8_add_not8_toNat s.a s.b 0
  rw [Nat.cast_zero, Int.add_zero] at hsub
  exact ⟨⟨_, rfl, rfl, hsub, borrowOut_add_not8_eq_one_iff s.a s.b 0⟩,
    ⟨_, rfl, rfl, low8_add_not8_toNat s.a s.b s.c.toNat, borrowOut_add_not8_eq_one_iff s.a s.b s.c.toNat⟩⟩

/-- Settles O45: a borrow of the low bytes adds 0x100 to their difference, and `SUBC` adds 0x100 where it should
subtract it (D7, D22). -/
theorem subThenSubcIsOffByTheBorrow : Obligations.SubThenSubcIsOffByTheBorrow := by
  intro s ah bh
  obtain ⟨t, ht, -, hlow, hborrow⟩ := (subtractionResults s).1
  obtain ⟨u, hu, -, hhigh, -⟩ := (subtractionResults { t with a := ah, b := bh }).2
  have hcarry : t.c.toNat = 1 ↔ s.a.toNat < s.b.toNat := (BitVec.toNat_inj (y := 1#1)).trans hborrow
  refine ⟨t, u, ht, hu, ?_⟩
  dsimp only at hhigh
  split
  · omega
  · omega

end Sys2Proof.Machine
end

section
/-! Shifts (42_shifts.md): the bits shifted out, and the two shifts whose count depends on `c`. -/
namespace Sys2Proof.Machine

/-! ### The bit a shift puts in `c` (R110 to R113) -/

theorem bitOf_toNat (v : Byte) (i : Nat) : (bitOf v i).toNat = (v.getLsbD i).toNat :=
  calc (v.toNat >>> i) % 2
      = v.toNat / 2 ^ i % 2 := by rw [Nat.shiftRight_eq_div_pow]
    _ = (v.toNat.testBit i).toNat := (Nat.toNat_testBit ..).symm

theorem bitOf_zero_toNat (v : Byte) : (bitOf v 0).toNat = v.toNat % 2 := rfl

theorem carryOut_eq_one_iff (v : Nat) : carryOut v = 1#1 ↔ 255 < v := by simp [carryOut]

/-- Doubling a byte carries out its bit 7. -/
theorem carryOut_double_toNat (v : Byte) : (carryOut (2 * v.toNat)).toNat = (v.getLsbD 7).toNat := by
  have hbit : (v.getLsbD 7).toNat = v.toNat / 2 ^ 7 % 2 := Nat.toNat_testBit ..
  rw [carryOut_toNat, hbit]
  split <;> omega

/-! ### The shifts by one (R110, R112) -/

theorem exec_shl_eq (s : State) :
    exec .shl s = .next { s with a := low8 (2 * s.a.toNat), c := carryOut (2 * s.a.toNat) } := by
  have hdouble : s.a.toNat <<< 1 = 2 * s.a.toNat := by rw [Nat.shiftLeft_eq, Nat.mul_comm, pow_one]
  rw [← hdouble]
  rfl

theorem exec_shr_eq (s : State) :
    exec .shr s = .next { s with a := low8 (s.a.toNat / 2), c := bitOf s.a 0 } := rfl

/-- Settles O46: a left shift doubles `a` into 9 bits, a right shift divides it by 2 with remainder. -/
theorem shiftByOneResults : Obligations.ShiftByOneResults := by
  refine fun s => ⟨⟨_, exec_shl_eq s, rfl, carryOut_low8_toNat (by omega), carryOut_double_toNat s.a⟩,
    ⟨_, exec_shr_eq s, rfl, ?_, bitOf_toNat s.a 0⟩⟩
  rw [low8_toNat, bitOf_zero_toNat]
  omega

/-! ### The shifts whose count depends on `c` (R111, R113) -/

theorem exec_slhc_eq (s : State) :
    exec .slhc s = .next { s with
      a := low8 (s.a.toNat * 2 ^ (1 + s.c.toNat))
      c := carryOut (s.a.toNat * 2 ^ (1 + s.c.toNat)) } := by
  rw [← Nat.shiftLeft_eq]
  rfl

/-- Settles O47: the carry is set when `a * 2^(1 + c)` exceeds 255, which for `c` = 1 is `a * 4`. -/
theorem slhcShiftsByOnePlusCarry : Obligations.SlhcShiftsByOnePlusCarry := by
  refine fun s => ⟨_, exec_slhc_eq s, rfl, fun hc => ?_, fun hc => ?_, carryOut_eq_one_iff _⟩
  · rw [exec_shl_eq, hc, Nat.mul_comm]
    rfl
  · rw [hc]
    refine ⟨low8_toNat _, (carryOut_eq_one_iff _).trans ?_⟩
    change 255 < s.a.toNat * 4 ↔ 64 ≤ s.a.toNat
    omega

/-- A shift by 129 leaves nothing of a byte. -/
theorem low8_shiftRight_carry_toNat (v : Byte) (c : Bit) :
    (low8 (v.toNat >>> (1 + c.toNat * 128))).toNat = if c = 1#1 then 0 else v.toNat / 2 := by
  obtain rfl | rfl := BitVec.eq_zero_or_eq_one c
  · rw [if_neg (by decide), low8_toNat]
    change v.toNat >>> 1 % 256 = v.toNat / 2
    omega
  · have hzero : v.toNat >>> 129 = 0 := Nat.shiftRight_eq_zero _ _ (v.isLt.trans (by decide))
    exact congrArg (fun n => (low8 n).toNat) hzero

/-- Settles O48: the shift by 1 or 129, and one case for each setting of `SHRC_CARRY`. -/
theorem shrcShiftsByOnePlus128TimesCarry : Obligations.ShrcShiftsByOnePlus128TimesCarry := by
  refine fun s => ⟨_, exec_shrc_eq s, rfl, low8_shiftRight_carry_toNat s.a s.c, fun hk => ?_, fun hk => ?_⟩
  · simp only [hk, bitOf_zero_toNat]
  · simp only [hk]

end Sys2Proof.Machine
end

section
/-! Logic and parity (43_logic_and_parity.md): the six bitwise results, and the parity of one byte and of many. -/
namespace Sys2Proof.Machine

/-! ### Logic (R120 to R125) -/

/-- The `XOR 0xFF` of `NAND`, `NOR` and `XNOR` is the complement. -/
theorem getLsbD_xor_255 (v : Byte) {k : Nat} (hk : k < 8) : (v ^^^ 255#8).getLsbD k = !v.getLsbD k := by
  have hnot : v ^^^ 255#8 = ~~~v := BitVec.xor_allOnes
  rw [hnot, BitVec.getLsbD_not, decide_eq_true hk, Bool.true_and]

/-- Settles O49: the first three results are the library's bitwise operations, the other three their complements. -/
theorem logicResultsBitByBit : Obligations.LogicResultsBitByBit := fun _ =>
  ⟨⟨_, rfl, rfl, fun _ _ => BitVec.getLsbD_and⟩,
    ⟨_, rfl, rfl, fun _ _ => BitVec.getLsbD_or⟩,
    ⟨_, rfl, rfl, fun _ _ => BitVec.getLsbD_xor⟩,
    ⟨_, rfl, rfl, fun _ hk => (getLsbD_xor_255 _ hk).trans (congrArg not BitVec.getLsbD_and)⟩,
    ⟨_, rfl, rfl, fun _ hk => (getLsbD_xor_255 _ hk).trans (congrArg not BitVec.getLsbD_or)⟩,
    ⟨_, rfl, rfl, fun _ hk => (getLsbD_xor_255 _ hk).trans (congrArg not BitVec.getLsbD_xor)⟩⟩

/-! ### Parity of one byte (R126, R127) -/

/-- Exclusive or of single bits is addition modulo 2. -/
theorem bit_xor_toNat (x y : Bit) : (x ^^^ y).toNat = (x.toNat + y.toNat) % 2 := by
  rw [← BitVec.add_eq_xor, BitVec.toNat_add, pow_one]

theorem xorBits_toNat (v : Byte) : (xorBits v).toNat = popcount v % 2 := by
  simp only [xorBits, popcount, bit_xor_toNat]
  omega

theorem popcount_eq_countP (v : Byte) : popcount v = (List.range 8).countP (fun k => v.getLsbD k) := by
  simp only [popcount, bitOf_toNat, Bool.toNat, Bool.cond_eq_ite, List.range_succ, List.range_zero, List.countP_append,
    List.countP_singleton, List.countP_nil, Nat.zero_add]

/-- Settles O50: both instructions reduce the number of 1 bits modulo 2. -/
theorem parityResults : Obligations.ParityResults := by
  intro s
  rw [← popcount_eq_countP]
  refine ⟨⟨_, rfl, rfl, xorBits_toNat s.a⟩, ⟨_, rfl, rfl, ?_⟩⟩
  calc (BitVec.ofNat 1 (popcount s.a % 2) ^^^ s.c).toNat
      = (popcount s.a % 2 % 2 + s.c.toNat) % 2 := by rw [bit_xor_toNat, BitVec.toNat_ofNat, pow_one]
    _ = (popcount s.a + s.c.toNat) % 2 := by omega

/-! ### Parity of many bytes (R127) -/

theorem checksumRun_cons {s t : State} {v : Byte} (h : exec .cksmc (s.setA v) = .next t) (vs : List Byte) :
    checksumRun (v :: vs) s = checksumRun vs t := by
  rw [checksumRun, h]

/-- A run of `CKSMC` adds the 1 bits of its bytes to `c` modulo 2. -/
theorem checksumRun_c_toNat (bytes : List Byte) (s : State) :
    (checksumRun bytes s).c.toNat =
      (s.c.toNat + (bytes.map (fun v => (List.range 8).countP (fun k => v.getLsbD k))).sum) % 2 := by
  induction bytes generalizing s with
  | nil => exact (Nat.mod_eq_of_lt s.c.isLt).symm
  | cons v vs ih =>
    obtain ⟨t, ht, -, hc⟩ := (parityResults (s.setA v)).2
    rw [State.setA_a, State.setA_c] at hc
    rw [checksumRun_cons ht, ih, hc, List.map_cons, List.sum_cons]
    omega

/-- Settles O51: `CKSM` starts the sum that the run of `CKSMC` continues. -/
theorem runningParityOfManyBytes : Obligations.RunningParityOfManyBytes := by
  intro bytes first s
  obtain ⟨t, ht, -, hc⟩ := (parityResults { s with a := first }).1
  refine ⟨t, ht, ?_⟩
  rw [checksumRun_c_toNat, hc, List.map_cons, List.sum_cons, Nat.mod_add_mod]

end Sys2Proof.Machine
end

section
/-! Counter and branches (44_counter_and_branches.md): `q` up and down by one, and which jumps are taken. -/
namespace Sys2Proof.Machine

/-! ### The counter (R140, R141) -/

theorem byte_pred_toNat (v : Byte) : (v - 1#8).toNat = (v.toNat + 255) % 256 := by
  rw [BitVec.toNat_sub, Nat.add_comm]
  rfl

theorem exec_decr_of_incr {s t : State} (h : exec .incr s = .next t) : exec .decr t = .next s := by
  cases h
  calc exec .decr (s.setQ (s.q + 1#8))
      = .next (s.setQ (s.q + 1#8 - 1#8)) := rfl
    _ = .next s := by rw [BitVec.add_sub_cancel]; rfl

theorem exec_incr_of_decr {s t : State} (h : exec .decr s = .next t) : exec .incr t = .next s := by
  cases h
  calc exec .incr (s.setQ (s.q - 1#8))
      = .next (s.setQ (s.q - 1#8 + 1#8)) := rfl
    _ = .next s := by rw [BitVec.sub_add_cancel]; rfl

/-- Settles O52: each is one write of `q` modulo 256, and `z` is 1 where that value is 0. -/
theorem counterResults : Obligations.CounterResults := by
  intro s
  have hincr : (s.q + 1#8).toNat = (s.q.toNat + 1) % 256 := BitVec.toNat_add ..
  have hdecr : (s.q - 1#8).toNat = (s.q.toNat + 255) % 256 := byte_pred_toNat s.q
  refine ⟨⟨s.setQ (s.q + 1#8), rfl, rfl, hincr, ?_, exec_decr_of_incr rfl⟩,
    ⟨s.setQ (s.q - 1#8), rfl, rfl, hdecr, ?_, exec_incr_of_decr rfl⟩⟩
  · rw [z_eq_one_iff, State.setQ_q, hincr]
    omega
  · rw [z_eq_one_iff, State.setQ_q, hdecr]
    omega

/-! ### The jumps (R142 to R145) -/

theorem exec_jmpc_of_c_toNat (s : State) :
    exec .jmpc s = .next { s with p := if s.c.toNat = 1 then s.r else s.p } := by
  simpa using JumpTaken.exec_eq (taken := decide (s.c.toNat = 1)) (.inr (.inl ⟨rfl, decide_eq_true_iff⟩))

theorem exec_jmpz_of_q_toNat (s : State) :
    exec .jmpz s = .next { s with p := if s.q.toNat = 0 then s.r else s.p } := by
  simpa using JumpTaken.exec_eq (taken := decide (s.q.toNat = 0)) (.inr (.inr (.inl ⟨rfl, decide_eq_true_iff⟩)))

theorem exec_jmpq_of_q_toNat (s : State) :
    exec .jmpq s = .next { s with p := if s.q.toNat = 0 then s.p else s.r } := by
  simpa using JumpTaken.exec_eq (taken := decide (s.q.toNat ≠ 0)) (.inr (.inr (.inr ⟨rfl, decide_eq_true_iff⟩)))

/-- Settles O53: `JMPZ` and `JMPQ` branch on the same test, `q = 0`, in opposite ways. -/
theorem jumpResults : Obligations.JumpResults := by
  refine fun s => ⟨rfl, exec_jmpc_of_c_toNat s, _, _, exec_jmpz_of_q_toNat s, rfl, exec_jmpq_of_q_toNat s, rfl, ?_⟩
  by_cases hq : s.q.toNat = 0
  · exact .inl ⟨if_pos hq, if_pos hq⟩
  · exact .inr ⟨if_neg hq, if_neg hq⟩

end Sys2Proof.Machine
end

section
/-! Stack and subroutine (45_stack_and_subroutine.md): what `PSH` and `SUBR` leave in the slots, and what `POP` and
`RET` take back from them. -/
namespace Sys2Proof.Machine

/-! ### Push and pop (R160 to R162) -/

theorem memRead_stackSlot (s : State) (x : Byte) :
    s.memRead (stackSlot x) = Memory.read s.mem ((0xFF00 + x.toNat) % 2 ^ s.params.addrWidth) :=
  congrArg (Memory.read s.mem) (cellOf_stackSlot s.params x)

theorem exec_pop_eq (s : State) :
    exec .pop s = .next { s with s := s.s + 1#8, a := s.memRead (stackSlot (s.s + 1#8)) } := rfl

/-- Settles O54: the bus stores the masked `a` in the cell of the slot, and any other cell reads as before. -/
theorem pshStoresAAndDecrementsS : Obligations.PshStoresAAndDecrementsS := by
  intro s h
  refine ⟨s.push s.a, rfl, rfl, byte_pred_toNat s.s, fun i _ => ?_⟩
  have hread : Memory.read (s.push s.a).mem i =
      if i = cellOf s.params s.stackAddr then maskWrite s.params s.a else Memory.read s.mem i := Memory.read_write h.2
  rw [hread, apply_ite BitVec.toNat, maskWrite_toNat h.writeWidth_le, State.stackAddr, cellOf_stackSlot]

/-- Settles O55: the load reads the cell of the slot of `s + 1`. -/
theorem popIncrementsSAndLoadsA : Obligations.PopIncrementsSAndLoadsA := fun s =>
  ⟨_, exec_pop_eq s, rfl, BitVec.toNat_add .., memRead_stackSlot s (s.s + 1#8)⟩

/-- Settles O56: `s` is back at the slot that `PSH` wrote, so `POP` reads there what the bus has stored. -/
theorem pshThenPopIsAnInverse : Obligations.PshThenPopIsAnInverse := by
  intro s t t' h hpsh hs _ hslot
  cases hpsh
  have hback : t'.s + 1#8 = s.s := by rw [hs]; exact BitVec.sub_add_cancel s.s 1#8
  have hread : t'.memRead (stackSlot (t'.s + 1#8)) = maskWrite s.params s.a := by
    rw [hback]
    exact hslot.trans ((push_memRead h.2 s.a s.stackAddr).trans (if_pos rfl))
  refine ⟨_, exec_pop_eq t', hback, ?_, fun hw => ?_⟩
  · rw [hread, maskWrite_toNat h.writeWidth_le]
  · rw [hread, maskWrite_eight hw]

/-! ### Call and return (R163 to R165) -/

theorem maskWrite_hiByte_toNat {s : State} (h : s.Inv) (v : Word) :
    (maskWrite s.params (hiByte v)).toNat = v.toNat / 256 % 2 ^ s.params.writeWidth := by
  rw [maskWrite_toNat h.writeWidth_le, hiByte_toNat]

theorem maskWrite_loByte_toNat {s : State} (h : s.Inv) (v : Word) :
    (maskWrite s.params (loByte v)).toNat = v.toNat % 256 % 2 ^ s.params.writeWidth := by
  rw [maskWrite_toNat h.writeWidth_le, loByte_toNat]

/-- Settles O57: the pushes leave the bytes of `p` in the two slots, and only their cells are written. -/
theorem subrPushesTheReturnAddressAndJumps : Obligations.SubrPushesTheReturnAddressAndJumps := by
  intro s h
  obtain ⟨t, ht, -, -, hs, hhi, hlo⟩ := exec_subr_pushes_p h
  obtain ⟨-, hcells⟩ := instructionWritesOnlyItsCells s t
  obtain ⟨-, -, hframe⟩ := hcells h
  refine ⟨t, ht, ?_, ?_, (congrArg BitVec.toNat hhi).trans (maskWrite_hiByte_toNat h s.p),
    (congrArg BitVec.toNat hlo).trans (maskWrite_loByte_toNat h s.p), hframe ht⟩
  · cases ht
    rfl
  · rw [hs]
    bv_omega

/-- Settles O58: `l` and `h` come from the slots of `s + 1` and `s + 2`. -/
theorem retPopsTheAddressPairOnly : Obligations.RetPopsTheAddressPairOnly := by
  intro s
  have hone : (s.s + 1#8).toNat = (s.s.toNat + 1) % 256 := BitVec.toNat_add ..
  have htwo : (s.s + 2#8).toNat = (s.s.toNat + 2) % 256 := BitVec.toNat_add ..
  refine ⟨_, exec_ret_eq s, rfl, htwo, ?_, ?_⟩
  · rw [← hone]
    exact memRead_stackSlot s (s.s + 1#8)
  · rw [← htwo]
    exact memRead_stackSlot s (s.s + 2#8)

/-- `RET` finds in the two slots what the pushes of `SUBR` have stored: the bytes of `p`, each modulo 2^W. -/
theorem exec_ret_after_subr {s t t' : State} (h : s.Inv) (ht : exec .subr s = .next t) (hs : t'.s = t.s)
    (hhi : t'.memRead s.stackAddr = t.memRead s.stackAddr)
    (hlo : t'.memRead (stackSlot (s.s - 1#8)) = t.memRead (stackSlot (s.s - 1#8))) :
    exec .ret t' = .next { t' with
      s := s.s, l := maskWrite s.params (loByte s.p), h := maskWrite s.params (hiByte s.p) } := by
  obtain ⟨u, hu, -, -, hus, huhi, hulo⟩ := exec_subr_pushes_p h
  obtain rfl : t = u := by simpa using ht.symm.trans hu
  have hone : t'.s + 1#8 = s.s - 1#8 := by rw [hs, hus]; bv_omega
  have htwo : t'.s + 2#8 = s.s := by rw [hs, hus, BitVec.sub_add_cancel]
  rw [exec_ret_eq, hone, htwo, hlo, hulo, ← huhi, ← hhi]
  rfl

/-- Settles O59: `RET` leaves in `h:l` the stored bytes of the return address, and `JMP` goes where `h:l` says. -/
theorem subrThenRetThenJmpResumesTheCaller : Obligations.SubrThenRetThenJmpResumesTheCaller := by
  intro s t t' h ht hs _ hhi hlo
  refine ⟨_, _, exec_ret_after_subr h ht hs hhi hlo, rfl, rfl, rfl, ?_, fun hw => ?_, rfl⟩
  · rw [r_toNat, maskWrite_hiByte_toNat h, maskWrite_loByte_toNat h]
  · rw [State.r, maskWrite_eight hw, maskWrite_eight hw, hiByte_append_loByte]

end Sys2Proof.Machine
end

section
/-! Exceptions (60_exceptions.md): nothing traps, the halt is the only abnormal outcome of a step, and what the host's
own calls answer where they fail. -/
namespace Sys2Proof.Machine

/-! ### No exception (R180) -/

/-- Every arm of the dispatch ends in a next state. -/
theorem exec_eq_next (i : Instr) (s : State) : ∃ t, exec i s = .next t := by
  cases i <;> exact ⟨_, rfl⟩

theorem step_eq_next (s : State) : ∃ t, step s = .next t := by
  cases hs : s.status with
  | running =>
    rw [step_of_running hs]
    exact exec_eq_next _ _
  | halted => exact ⟨s, step_of_halted hs⟩

/-- Settles O22: no meaning answers a fault or a refusal, and a step is an instruction's meaning or nothing. -/
theorem nothingRaisesAnException : Obligations.NothingRaisesAnException :=
  ⟨exec_eq_next, step_eq_next⟩

/-! ### The halt (R181) -/

theorem State.report_eq_true_iff {s : State} : s.report = true ↔ s.status = .running := beq_iff_eq

theorem fetchInstr_status (s : State) : (fetchInstr s).2.status = s.status := by
  rw [fetchInstr_snd]

/-- What is fetched halts exactly when the opcode at `p` does. -/
theorem fetchInstr_halting_iff (s : State) : (fetchInstr s).1.Halting ↔ HaltsOn (s.memRead s.p) := by
  rcases h : formatOf (s.memRead s.p) with _ | _ | _
  · rw [fetchInstr_f1 h, assemble_halting_iff]
  · rw [fetchInstr_f2 h, assemble_halting_iff]
  · rw [fetchInstr_f3 h, assemble_halting_iff]

/-- A halting opcode has no immediates, so `p` moves past it alone. -/
theorem step_of_haltsOn {s : State} (hs : s.status = .running) (hop : HaltsOn (s.memRead s.p)) :
    step s = .next { s with p := s.p + 1#16, status := .halted } := by
  obtain ⟨-, -, -, -, -, -, hstep⟩ := haltingInstructionsOnlySetHalted s (s.memRead s.p)
  exact hstep hs hop

theorem step_status_of_not_haltsOn {s t : State} (hs : s.status = .running) (hop : ¬ HaltsOn (s.memRead s.p))
    (h : step s = .next t) : t.status = .running := by
  rw [step_of_running hs] at h
  rw [exec_status_of_not_halting (mt (fetchInstr_halting_iff s).mp hop) h, fetchInstr_status, hs]

/-- Settles O21: a halting opcode fixes the next state, and after any other the block is still RUNNING. -/
theorem blockHaltsExactlyOnHltAndUnimplementedOpcodes :
    Obligations.BlockHaltsExactlyOnHltAndUnimplementedOpcodes := by
  intro s hs
  by_cases hop : HaltsOn (s.memRead s.p)
  · refine ⟨_, step_of_haltsOn hs hop, iff_of_true rfl hop, State.report_eq_true_iff, fun _ => ⟨rfl, ?_⟩⟩
    exact congrArg s.memRead (BitVec.add_sub_cancel s.p 1#16)
  · obtain ⟨t, ht⟩ := step_eq_next s
    have hreport : t.report = true := State.report_eq_true_iff.mpr (step_status_of_not_haltsOn hs hop ht)
    exact ⟨t, ht, iff_of_false (by simp [hreport]) hop, State.report_eq_true_iff, fun h => absurd h hop⟩

/-! ### The terminal state (R193) -/

theorem run_of_halted {s : State} (h : s.status = .halted) (n : Nat) :
    Host.Core.run Sys2Proof.core n s = .next s := by
  have hstep : Sys2Proof.core.step s = .next s := step_of_halted h
  induction n with
  | zero => rfl
  | succ n ih => simp only [Host.Core.run, hstep, ih]

/-- Settles O20, by induction on the number of steps. -/
theorem haltedBlockStaysAsItIs : Obligations.HaltedBlockStaysAsItIs := fun _ n h =>
  ⟨run_of_halted h n, busTrace_of_halted h, State.report_eq_false_iff.mpr h⟩

/-! ### The run that does not end (R142, R194) -/

theorem step_of_jmp_to_itself {s : State} (hs : s.status = .running) (hop : s.memRead s.p = 0x26#8)
    (hr : s.r = s.p) : step s = .next s :=
  calc step s
      = exec .jmp { s with p := s.p + 1#16 } := step_f1 hs hop rfl
    _ = .next { s with p := s.r } := rfl
    _ = .next s := by rw [hr]

/-- A RUNNING state that is its own next state begins no run with a final state. -/
theorem drive_eq_none_of_step_self {s : State} (hs : s.status = .running) (h : step s = .next s) (n : Nat) :
    drive n s = none := by
  induction n with
  | zero => rfl
  | succ n ih => rw [drive_succ_of_report_true h (State.report_eq_true_iff.mpr hs), ih]

/-- Settles O25: the jump target is the `p` that the fetch moved away from. -/
theorem jumpToItselfNeverHalts : Obligations.JumpToItselfNeverHalts := fun _ hs hop hr =>
  have hself := step_of_jmp_to_itself hs hop hr
  ⟨hself, drive_eq_none_of_step_self hs hself⟩

/-! ### The register API (R182) -/

theorem RegName.ofString_eq_none {name : String} (h : name ∉ ["a", "b", "q", "h", "l", "p", "s", "c", "r", "z"]) :
    RegName.ofString name = none := by
  unfold RegName.ofString
  split
  case h_11 => rfl
  all_goals
    -- A list of characters that the map knows spells one of the ten names.
    rename_i hchars
    rw [← String.ofList_toList (s := name), hchars] at h
    exact absurd h (by decide)

/-- Settles O4: only the ten names are known, `r` and `z` among them for a get only, and every step has a next state. -/
theorem registerApiFaultsOnUnknownNames : Obligations.RegisterApiFaultsOnUnknownNames := by
  refine ⟨fun s name v h => ?_, fun s v => ⟨rfl, rfl⟩, fun s => ⟨rfl, rfl⟩, fun s f h => ?_⟩
  · simp only [regGet, regSet, RegName.ofString_eq_none h, and_self]
  · obtain ⟨t, ht⟩ := step_eq_next s
    simp [ht] at h

/-! ### The launch (R183) -/

theorem launch_none {P : Params} (h : P.Legal) : launch P none = .fault .loaderFailed :=
  if_pos h

theorem launch_of_not_legal {P : Params} (h : ¬ P.Legal) (image : Option (List ImageEntry)) :
    launch P image = .refused .illegalParams :=
  if_neg h

/-- Settles O13: a launch looks at the parameters first, and each bound of R5 that fails makes them illegal. -/
theorem noLaunchWithoutImageOrLegalParameters : Obligations.NoLaunchWithoutImageOrLegalParameters :=
  ⟨fun _ h => launch_none h, fun _ image h => launch_of_not_legal (by unfold Params.Legal; omega) image⟩

end Sys2Proof.Machine
end

section
/-! Reset and restart (70_reset_and_hazards.md section 1): the values they give, the cells they leave, and the
invariant. -/
namespace Sys2Proof.Machine

/-! ### Reset (R200) -/

theorem resetOver_r (P : Params) (m : Memory) : (State.resetOver P m).r = 0 := by
  simp only [State.r, State.resetOver, BitVec.reduceAppend, BitVec.ofNat_eq_ofNat]

theorem resetOver_z (P : Params) (m : Memory) : (State.resetOver P m).z = 1 :=
  (z_eq_one_iff _).mpr rfl

theorem memRead_resetOver_nil (P : Params) (addr : Word) : (State.resetOver P []).memRead addr = 0 := rfl

/-- Settles O1: the physical registers, the status and the cells are fields of the reset state, and `r` and `z` follow
`h`, `l` and `q`. -/
theorem resetGivesTheSpecifiedValues : Obligations.ResetGivesTheSpecifiedValues := by
  refine ⟨fun P m => ⟨rfl, rfl, rfl, rfl, rfl, rfl, rfl, rfl, rfl, rfl, ?_, resetOver_z P m⟩, hardwareParams, [], rfl⟩
  rw [resetOver_r]
  rfl

/-- What reset leaves alone is all that the invariant speaks of. -/
theorem resetOver_inv_iff {P : Params} {m : Memory} :
    (State.resetOver P m).Inv ↔ P.Legal ∧ Memory.wf P.cells m = true := Iff.rfl

theorem hardwareParams_legal : hardwareParams.Legal := by decide

theorem State.reset_inv : State.reset.Inv := ⟨hardwareParams_legal, State.reset_mem_wf⟩

/-! ### Restart (R201) -/

theorem restart_status (s : State) : s.restart.status = .running := rfl

theorem restart_memRead (s : State) (addr : Word) : s.restart.memRead addr = s.memRead addr := rfl

theorem State.Inv.restart {s : State} (h : s.Inv) : s.restart.Inv := resetOver_inv_iff.mpr h

/-- Settles O2: no step leaves HALTED, and a restart is RUNNING over the same cells. -/
theorem restartResetsRegistersAndKeepsMemory : Obligations.RestartResetsRegistersAndKeepsMemory := fun s =>
  ⟨step_of_halted, rfl, State.report_eq_true_iff.mpr (restart_status s), restart_memRead s⟩

/-- Settles O27: the hardware's parameters are legal and the empty memory is canonical; a restart keeps both. -/
theorem resetMeetsTheInvariant : Obligations.ResetMeetsTheInvariant :=
  ⟨State.reset_inv, memRead_resetOver_nil hardwareParams, fun _ h => h.restart⟩

end Sys2Proof.Machine
end
